-- ==== Sys2Proof/Word.lean ====
section
/-! DEFINITION. The word types of the block: every value is an unsigned integer of a stated width (00_scope.md R5). -/

namespace Sys2Proof

/-- A byte, bit 0 least significant (R5). -/
abbrev Byte := BitVec 8

/-- One decimal digit as the block holds it, `ones[3:0]` and `tens[3:0]` (R23, R24). -/
abbrev Nibble := BitVec 4

/-- The count of valid bytes in the ring, `level[8:0]`: nine bits because 256 is reachable (R31). -/
abbrev Level := BitVec 9

/-- The prescaler count, `presc[9:0]` (R37). -/
abbrev Prescaler := BitVec 10

end Sys2Proof
end

