-- ==== Sys2Proof/Syntax.lean ====
section
/-! DEFINITION. The operations of the block, one constructor per row of the opcode table (30_encoding.md R82). -/

namespace Sys2Proof

/-- The ten operations. All but `tick` arrive as a frame on the command port (R80); TICK has no encoding (R89). -/
inductive Instr where
  /-- LOG.DRAIN, format Z, opcode 0x10 (R136). -/
  | logDrain
  /-- LOG.APPEND, format V, opcode 0x11: the message bytes; the operand `LEN` is their number (R86, R133). -/
  | logAppend (text : List Byte)
  /-- LOG.INIT, format Z, opcode 0x12 (R131). -/
  | logInit
  /-- MUX.INIT, format Z, opcode 0x20 (R112). -/
  | muxInit
  /-- MUX.SET, format B, opcode 0x21 (R114). -/
  | muxSet (value : Byte)
  /-- ENC.INIT, format B, opcode 0x30 (R150). -/
  | encInit (maxCount : Byte)
  /-- ENC.SAMPLE, format Z, opcode 0x31 (R153). -/
  | encSample
  /-- LED.SET, format L, opcode 0x81, an external command (R170). -/
  | ledSet (c0 c1 c2 c3 : Byte)
  /-- TICK, format EVT: no bit pattern, invoked by the timer only (R89, R113). -/
  | tick
  /-- An unassigned opcode byte, format Z (R171). -/
  | unassigned (opcode : Byte)
deriving DecidableEq, Repr

end Sys2Proof
end

