-- ==== Sys2Proof/WellFormed.lean ====
section
/-! DEFINITION. Which terms of `Instr` stand for an operation the spec has. -/

namespace Sys2Proof

/-- The eight assigned opcode values (R82, R88). -/
def assignedOpcodes : List Byte := [0x10, 0x11, 0x12, 0x20, 0x21, 0x30, 0x31, 0x81]

/-- A message has at most 255 bytes, since `LEN` is one byte (R86); an unassigned opcode is none of the eight assigned
ones (R88). Every other operand is any byte (R85). -/
def Instr.wellFormed : Instr → Bool
  | .logAppend text => decide (text.length ≤ 255)
  | .unassigned opcode => !assignedOpcodes.contains opcode
  | .logDrain | .logInit | .muxInit | .muxSet _ | .encInit _ | .encSample | .ledSet _ _ _ _ | .tick => true

/-- Whether the operation is a frame on the command port; TICK is not one (R89). -/
def Instr.isFrame : Instr → Bool
  | .tick => false
  | .logDrain | .logAppend _ | .logInit | .muxInit | .muxSet _ | .encInit _ | .encSample | .ledSet _ _ _ _
  | .unassigned _ => true

end Sys2Proof
end

