-- ==== Sys2Proof/Decode.lean ====
section
/-! DEFINITION. The frame decoder of 30_encoding.md, total on any bytes, and the encoder written from the same tables. -/

namespace Sys2Proof

/-- The frame formats of R81. -/
inductive Format where
  /-- one byte: the opcode -/
  | Z
  /-- two bytes: opcode, imm8 -/
  | B
  /-- `2 + LEN` bytes: opcode, LEN, data -/
  | V
  /-- five bytes: opcode, c0, c1, c2, c3 -/
  | L
deriving DecidableEq, Repr

/-- Why bytes do not decode: no opcode refuses (R88), so only a frame that is not complete yet. -/
inductive DecodeError where
  /-- no byte at all: nothing to decode -/
  | noOpcode
  /-- the frame that began with this opcode still lacks operand bytes -/
  | incomplete (opcode : Byte)
deriving DecidableEq, Repr

/-- The opcode byte alone selects the format; all eight bits are compared (R82). -/
def formatOf (opcode : Byte) : Format :=
  if opcode = 0x11 then .V
  else if opcode = 0x21 then .B
  else if opcode = 0x30 then .B
  else if opcode = 0x81 then .L
  else .Z

/-- The operation of a one-byte frame (R82); every other byte is unassigned (R88). -/
def decodeZ (opcode : Byte) : Instr :=
  if opcode = 0x10 then .logDrain
  else if opcode = 0x12 then .logInit
  else if opcode = 0x20 then .muxInit
  else if opcode = 0x31 then .encSample
  else .unassigned opcode

/-- The operation of a two-byte frame (R82, R85). -/
def decodeB (opcode imm8 : Byte) : Instr :=
  if opcode = 0x21 then .muxSet imm8 else .encInit imm8

/-- Reads one frame from the front of the bytes and answers its operation with the bytes that follow it (R80, R81). -/
def decode : List Byte → Except DecodeError (Instr × List Byte)
  | [] => .error .noOpcode
  | opcode :: rest =>
    match formatOf opcode with
    | .Z => .ok (decodeZ opcode, rest)
    | .B =>
      match rest with
      | imm8 :: rest => .ok (decodeB opcode imm8, rest)
      | [] => .error (.incomplete opcode)
    | .V =>
      match rest with
      | len :: rest =>
        if len.toNat ≤ rest.length then .ok (.logAppend (rest.take len.toNat), rest.drop len.toNat)
        else .error (.incomplete opcode)
      | [] => .error (.incomplete opcode)
    | .L =>
      match rest with
      | c0 :: c1 :: c2 :: c3 :: rest => .ok (.ledSet c0 c1 c2 c3, rest)
      | _ => .error (.incomplete opcode)

/-- How many bytes the frame at the front has: known from byte 0 alone, except for format V, where it is known after
byte 1 (R87). -/
def frameLength : List Byte → Option Nat
  | [] => none
  | opcode :: rest =>
    match formatOf opcode with
    | .Z => some 1
    | .B => some 2
    | .V => rest.head?.map fun len => 2 + len.toNat
    | .L => some 5

/-- The bytes of an operation's frame (R81, R82); TICK has none (R89). -/
def encode : Instr → List Byte
  | .logDrain => [0x10]
  | .logAppend text => 0x11 :: BitVec.ofNat 8 text.length :: text
  | .logInit => [0x12]
  | .muxInit => [0x20]
  | .muxSet value => [0x21, value]
  | .encInit maxCount => [0x30, maxCount]
  | .encSample => [0x31]
  | .ledSet c0 c1 c2 c3 => [0x81, c0, c1, c2, c3]
  | .tick => []
  | .unassigned opcode => [opcode]

/-- The bytes of an instruction whose bits are `w`, byte `j` in bits `8j+7..8j`, for its first `n` bytes. -/
def wordBytes (n w : Nat) : List Byte :=
  (List.range n).map fun j => BitVec.ofNat 8 (w >>> (8 * j))

/-- The bytes of a table row's `nbits` bits followed by the zero bytes above them, up to the longest frame, 257 bytes
(`95_test_vectors.md` X6). A row of no bits (TICK) has no byte at all. -/
def tableBytes (nbits w : Nat) : List Byte :=
  if nbits = 0 then [] else wordBytes (nbits / 8) w ++ List.replicate (257 - nbits / 8) 0

/-- The instruction the decoder reads from a table row's bits. TICK's row has no bits and no encoding, so nothing is
decoded for it (R89; log 16). -/
def decodeTableWord (nbits w : Nat) : Option Instr :=
  match decode (tableBytes nbits w) with
  | .ok (i, _) => some i
  | .error _ => none

/-- The bytes of exactly the one frame a table row's bits begin: what FG sends for it. -/
def tableFrame (nbits w : Nat) : List Byte :=
  (tableBytes nbits w).take ((frameLength (tableBytes nbits w)).getD 0)

end Sys2Proof
end

