-- ==== Sys2Proof/Config.lean ====
section
/-! DEFINITION. The parameters of rule R4 (fixed ones as numbers, OPEN ones as constants without a body) and the free
values: what the spec leaves to the environment or calls `any()` (R6, R12). -/

namespace Sys2Proof

/-- One answer of `lines()`: the levels of `enc_a` and `enc_b`, `true` = high (R6, R151). -/
structure Lines where
  a : Bool
  b : Bool
deriving DecidableEq, Repr, Inhabited

/-- What the input ports carry at one rising edge of `clk`: reset, whether FG offers its next command byte, and whether
HOST can take a response byte (R42). -/
structure EdgeIn where
  rst : Bool
  cmdValid : Bool
  rspReady : Bool
deriving DecidableEq, Repr, Inhabited

namespace Config

/-- `C`, the ring's capacity in bytes (R4). -/
def ringCapacity : Nat := 256

/-- `REPORT_SIZE`, the `N` of every Drain: the spec's default (R4, D20; log 10). -/
def reportSize : Nat := 64

/-- `DRAIN_PREFIX_BIAS`: the spec's value, 1 (R4, R137, D18; log 11). -/
def drainPrefixBias : Nat := 1

/-- `PRESCALE` (R4, R192). -/
def prescale : Nat := 1024

/-- `TIMER_TOP`, the compare value; `TICK_COUNTS` is one more (R4, R193, D11; log 12). -/
def timerTop : Byte := 250

/-- `TICK_COUNTS`, prescaled counts per Tick (R4). -/
def tickCounts : Nat := timerTop.toNat + 1

/-- The two bytes LOG.APPEND adds after every message (R130; PRESUMED by the spec's G2: their ASCII codes; log 14). -/
def cr : Byte := 0x0D
@[inherit_doc cr] def lf : Byte := 0x0A

/-- `SEG`, OPEN (R4, R110): the bus pattern of a digit. The spec applies it to 0..9 only; no value of it is known, and
the entries 10..15 are as free as the others (log 8). -/
opaque seg : Nibble → Byte

/-- `EN_ACTIVE_LEVEL`, OPEN (R4, R27): the electrical level of an active enable (log 9). -/
opaque enActiveLevel : Bool

/-- `F_CLK` in Hz, OPEN (R4): no rule but the timing text reads it (log 9, log 18). -/
opaque fClk : Nat

/-- `SETTLE_CYCLES`, OPEN (R4, R153): the clocks of the settle wait (log 9). -/
opaque settleCycles : Nat

/-- The `n`-th `any()` byte: a pad byte of a Drain block (R6, R136, U1; log 7). -/
opaque freeByte : Nat → Byte

/-- The answer of a `lines()` call that the state's queue of answers does not hold (R151, U9; log 3). -/
opaque freeLines : Nat → Lines

/-- The inputs at an edge that the state's queue of inputs does not hold (R12; log 4). -/
opaque freeEdge : Nat → EdgeIn

end Config

end Sys2Proof
end

