-- ==== Sys2Proof/Machine/State.lean ====
section
/-! DEFINITION. The state of the block (10_state.md R20): the three records, the pins, the timer, the hidden sequencing
state of R39, and beside them the outside world as plain data. -/

namespace Sys2Proof.Machine

/-- Which digit the next Tick shows, `activeDigit` (R25). -/
inductive Digit where
  | ones
  | tens
deriving DecidableEq, Repr

/-- The logical value of a digit-enable output (R27). -/
inductive Enable where
  | inactive
  | active
deriving DecidableEq, Repr

/-- The phase whose pin values stand on the pins while a Tick is in progress (R39(b), R113; log 15). -/
inductive TickPhase where
  | idle
  | p1
  | p2
  | p3
deriving DecidableEq, Repr

/-- The settle counter (R39(c)): idle, or the clocks still to wait of the ENC.SAMPLE in its settle wait. -/
inductive SettleCounter where
  | idle
  | counting (left : Nat)
deriving DecidableEq, Repr

/-- DisplayState (R22 to R25). -/
structure DisplayState where
  buffer : Byte
  ones : Nibble
  tens : Nibble
  activeDigit : Digit
deriving DecidableEq, Repr

/-- The output registers behind the pins (R26, R27). -/
structure Pins where
  seg : Byte
  enOnes : Enable
  enTens : Enable
deriving DecidableEq, Repr

/-- The ring's bytes, by index: strictly rising indices, and an index that is not listed holds no value (R29, R70;
log 6). -/
abbrev Memory := List Host.Cell

/-- LogBuffer (R29 to R31). -/
structure LogBuffer where
  ring : Memory
  startIx : Byte
  endIx : Byte
  level : Level
deriving DecidableEq, Repr

/-- EncoderState (R33 to R35). -/
structure EncoderState where
  count : Byte
  max : Byte
  gateClosed : Bool
deriving DecidableEq, Repr

/-- The timer's registers (R37, R38). -/
structure Timer where
  timerRun : Bool
  presc : Prescaler
  tcnt : Byte
  tickPending : Bool
deriving DecidableEq, Repr

/-- The hidden state of R39: the bytes of the frame in progress, the Tick phase, the settle counter and the response
bytes HOST has not yet accepted. -/
structure Sequencer where
  frame : List Byte
  tickPhase : TickPhase
  settle : SettleCounter
  rsp : List Byte
deriving DecidableEq, Repr

/-- The model's own fields: what the outside will do (R12) and what it has seen (R11). -/
structure Outside where
  /-- the inputs at the coming edges; after the last, each edge's inputs are free (log 4) -/
  edges : List EdgeIn
  /-- the command bytes FG has still to transfer, in order (R8(a); log 5) -/
  cmd : List Byte
  /-- the answers of the coming `lines()` calls; after the last, each answer is free (R151; log 3) -/
  lines : List Lines
  /-- the number of the next free value (log 7) -/
  draws : Nat
  /-- the pin trace, oldest first (R11(a); log 17) -/
  pinTrace : List Pins
  /-- the response bytes HOST has taken, oldest first (R11(b); log 17) -/
  taken : List Byte
deriving DecidableEq, Repr

/-- The state of the block and of the outside it meets. -/
structure State where
  display : DisplayState
  pins : Pins
  log : LogBuffer
  enc : EncoderState
  timer : Timer
  seq : Sequencer
  env : Outside
deriving DecidableEq, Repr

/-- Why the machine stops with a fault. -/
inductive Fault where
  /-- Raised by LOG.DRAIN when it would read a ring byte that nothing has written since reset: R70 lets a model hold such
  a byte as no value and fault on reading it. Safe: the spec's block never stops, and no state of the invariant
  (Safety.lean) reaches this. -/
  | ringUnwritten (index : Nat)
deriving DecidableEq, Repr

/-- Why the machine has no meaning for an instruction. No arm of `exec` answers with it. -/
inductive Refusal where
  /-- The instruction of this mnemonic has no meaning yet. Safe: nothing can be proved of its effect. -/
  | notModelled (mnemonic : String)
deriving DecidableEq, Repr

/-- The outcome of one operation or one step. -/
abbrev Result := Host.Outcome State Fault Refusal

namespace State

/-- `s` with another DisplayState. -/
def withDisplay (s : State) (d : DisplayState) : State := { s with display := d }

/-- `s` with other pin registers; the pin trace is `Machine.drivePins`' matter. -/
def withPins (s : State) (p : Pins) : State := { s with pins := p }

/-- `s` with another LogBuffer. -/
def withLog (s : State) (l : LogBuffer) : State := { s with log := l }

/-- `s` with another EncoderState. -/
def withEnc (s : State) (e : EncoderState) : State := { s with enc := e }

/-- `s` with another timer. -/
def withTimer (s : State) (t : Timer) : State := { s with timer := t }

/-- `s` with other sequencing state. -/
def withSeq (s : State) (q : Sequencer) : State := { s with seq := q }

/-- `s` with another outside. -/
def withEnv (s : State) (o : Outside) : State := { s with env := o }

/-- The block right after hardware reset: the column "reset" of R41, the ring's contents unspecified (nothing listed;
log 6), and an outside of which nothing is known. -/
def reset : State where
  display := { buffer := 0, ones := 0, tens := 0, activeDigit := .ones }
  pins := { seg := 0x00, enOnes := .inactive, enTens := .inactive }
  log := { ring := [], startIx := 0, endIx := 0, level := 0 }
  enc := { count := 0, max := 0, gateClosed := false }
  timer := { timerRun := false, presc := 0, tcnt := 0, tickPending := false }
  seq := { frame := [], tickPhase := .idle, settle := .idle, rsp := [] }
  env := { edges := [], cmd := [], lines := [], draws := 0, pinTrace := [], taken := [] }

end State

end Sys2Proof.Machine
end

