-- ==== Sys2Proof/Machine/Flags.lean ====
section
/-! DEFINITION. The one-bit predicates of the block (R40): there are no condition codes; `activeDigit`, `gateClosed`,
`timerRun` and `tickPending` select branches. -/

namespace Sys2Proof.Machine

/-- `activeDigit` after a Tick (R113). -/
def Digit.flip : Digit → Digit
  | .ones => .tens
  | .tens => .ones

/-- The digit value a Tick shows: `ones if activeDigit = ONES else tens` (R113). -/
def DisplayState.shown (d : DisplayState) : Nibble :=
  match d.activeDigit with
  | .ones => d.ones
  | .tens => d.tens

/-- The pins with both enables inactive, the bus as it was (R112, R113 phase P1). -/
def Pins.dark (p : Pins) : Pins := { p with enOnes := .inactive, enTens := .inactive }

/-- The pins with one digit's enable made active and the other left as it was (R113 phase P3). -/
def Pins.light (p : Pins) : Digit → Pins
  | .ones => { p with enOnes := .active }
  | .tens => { p with enTens := .active }

/-- Not both digits enabled (R28). -/
def Pins.exclusive (p : Pins) : Bool := !(decide (p.enOnes = .active) && decide (p.enTens = .active))

/-- The electrical level of an enable pin (R27): `EN_ACTIVE_LEVEL` when active, the other level when not. -/
def Enable.level : Enable → Bool
  | .active => Config.enActiveLevel
  | .inactive => !Config.enActiveLevel

end Sys2Proof.Machine

namespace Sys2Proof

/-- Either line reads low: the event an open gate acts on (R151, R153). -/
def Lines.anyLow (l : Lines) : Bool := !l.a || !l.b

/-- Both lines read high: the rest a closed gate waits for (R152). -/
def Lines.bothHigh (l : Lines) : Bool := l.a && l.b

end Sys2Proof
end

