-- ==== Sys2Proof/Machine/Operands.lean ====
section
/-! DEFINITION. The arithmetic of the operations on their operands (R7), all on unsigned integers. -/

namespace Sys2Proof.Machine

/-- `digits(v)`: the ones and the tens digit, the hundreds lost (R111, R7(a)). -/
def digits (v : Byte) : Nibble × Nibble :=
  (BitVec.ofNat 4 (v.toNat % 10), BitVec.ofNat 4 (v.toNat / 10 % 10))

/-- `satinc(count, max)` (R7(f)). -/
def satinc (count max : Byte) : Byte := if count.toNat < max.toNat then count + 1 else count

/-- `satdec(count)` (R7(f)). -/
def satdec (count : Byte) : Byte := if 0 < count.toNat then count - 1 else count

/-- `(i + 1) mod C`, the advance of a ring index (R7(b)). -/
def nextIndex (i : Byte) : Byte := BitVec.ofNat 8 ((i.toNat + 1) % Config.ringCapacity)

/-- The bytes an accepted message occupies: the text, then CR, then LF (R133). -/
def stored (text : List Byte) : List Byte := text ++ [Config.cr, Config.lf]

/-- The admission test of LOG.APPEND: dropped when `level + L + 2 > C`, compared exactly (R132, R7(c)). -/
def dropped (level : Level) (text : List Byte) : Bool :=
  decide (Config.ringCapacity < level.toNat + text.length + 2)

/-- `k = min(level, N - 1)`, the payload count of a Drain of block size `N` (R135). -/
def payloadCount (N : Nat) (level : Level) : Nat := min level.toNat (N - 1)

/-- The prefix byte of a Drain: 0 when nothing is returned, otherwise `k - DRAIN_PREFIX_BIAS` (R137). -/
def prefixByte (bias k : Nat) : Byte := if k = 0 then 0 else BitVec.ofNat 8 (k - bias)

/-- The count after the second reading of a gate-closing Sample: line A low increments, then line B low decrements what
the increment left (R153, D24). -/
def countAfter (count max : Byte) (l : Lines) : Byte :=
  let stepA := if l.a then count else satinc count max
  if l.b then stepA else satdec stepA

end Sys2Proof.Machine
end

