-- ==== Sys2Proof/Machine/Ops.lean ====
section
/-! DEFINITION. The named operations over the ring, the pins, the lines, the response port and the timer that the
meanings and the clock edge are made of, with the one interrupt's entry and return. -/

namespace Sys2Proof.Machine

/-! ## The ring as memory (20_memory.md) -/

/-- `MemRead(a, 1)`: the byte at an index, none where nothing has written (R6, R62, R70). -/
def Memory.read : Memory → Nat → Option Byte
  | [], _ => none
  | (k, b) :: m, a => if k = a then some b else Memory.read m a

/-- `MemWrite(a, 1, b)`, keeping the indices strictly rising (R6, R62). -/
def Memory.write : Memory → Nat → Byte → Memory
  | [], a, b => [(a, b)]
  | (k, c) :: m, a, b =>
    if a < k then (a, b) :: (k, c) :: m
    else if a = k then (a, b) :: m
    else (k, c) :: Memory.write m a b

/-- Every listed index is at least `lo`, inside the ring, and below the next listed one. -/
def Memory.risingFrom : Nat → Memory → Bool
  | _, [] => true
  | lo, (k, _) :: m => decide (lo ≤ k) && decide (k < Config.ringCapacity) && Memory.risingFrom (k + 1) m

/-- The canonical form: indices strictly rising, all in `0..C-1` (R61). An index that is not listed holds no value, so
no entry can equal what an unlisted index reads as. -/
def Memory.wf (m : Memory) : Bool := Memory.risingFrom 0 m

/-- One byte of LOG.APPEND's loop: `ring[end] <- b ; end <- (end + 1) mod C ; level <- level + 1` (R133). -/
def LogBuffer.push (l : LogBuffer) (b : Byte) : LogBuffer :=
  { l with ring := l.ring.write l.endIx.toNat b, endIx := nextIndex l.endIx, level := l.level + 1 }

/-- LOG.APPEND's loop over all its bytes, first byte first (R63, R133). -/
def LogBuffer.pushAll (l : LogBuffer) (bytes : List Byte) : LogBuffer := bytes.foldl LogBuffer.push l

/-- LOG.DRAIN's loop: `k` times `emit(ring[start]) ; start <- (start + 1) mod C ; level <- level - 1` (R136). The bytes
stay in the ring (R66). Where the ring holds no value the answer is the index (R70). -/
def LogBuffer.popMany : Nat → LogBuffer → Except Nat (List Byte × LogBuffer)
  | 0, l => .ok ([], l)
  | k + 1, l =>
    match l.ring.read l.startIx.toNat with
    | none => .error l.startIx.toNat
    | some b =>
      match LogBuffer.popMany k { l with startIx := nextIndex l.startIx, level := l.level - 1 } with
      | .ok (bytes, l') => .ok (b :: bytes, l')
      | .error i => .error i

/-! ## Pins, lines, responses -/

/-- New values of the pin registers, entered in the pin trace even where they are the old ones (R11(a), R113). -/
def drivePins (p : Pins) (s : State) : State :=
  (s.withPins p).withEnv { s.env with pinTrace := s.env.pinTrace ++ [p] }

/-- What `lines()` answers now: the environment's next answer, or a free value (R151). -/
def linesNow (s : State) : Lines :=
  match s.env.lines with
  | l :: _ => l
  | [] => Config.freeLines s.env.draws

/-- The state after one `lines()` call: its answer is used up (R151). -/
def linesTaken (s : State) : State :=
  match s.env.lines with
  | _ :: ls => s.withEnv { s.env with lines := ls }
  | [] => s.withEnv { s.env with draws := s.env.draws + 1 }

/-- `emit` of several bytes in order (R6, R90). -/
def emit (bytes : List Byte) (s : State) : State := s.withSeq { s.seq with rsp := s.seq.rsp ++ bytes }

/-- `n` bytes each of which is `any()` (R136, U1). -/
def padBytes (n : Nat) (s : State) : List Byte := (List.range n).map fun j => Config.freeByte (s.env.draws + j)

/-- `emit(any())`, `n` times (R136). -/
def emitPad (n : Nat) (s : State) : State :=
  (emit (padBytes n s) s).withEnv { s.env with draws := s.env.draws + n }

/-! ## The settle wait of ENC.SAMPLE (R39(c), R153) -/

/-- One clock of the settle counter; a counter at 0 has done its clocks. -/
def SettleCounter.next : SettleCounter → SettleCounter
  | .idle => .idle
  | .counting 0 => .idle
  | .counting (left + 1) => .counting left

/-- `emit(count)`, the end of every ENC.SAMPLE (R153). -/
def answerCount (s : State) : State := emit [s.enc.count] s

/-- The gate closes and the settle wait begins: `gateClosed <- true ; wait SETTLE_CYCLES clocks` (R153). -/
def beginWait (s : State) : State :=
  (s.withEnc { s.enc with gateClosed := true }).withSeq { s.seq with settle := .counting Config.settleCycles }

/-- What follows the settle wait: the second reading, the two counting steps, the response byte (R153). -/
def endWait (s : State) : State :=
  let s' := linesTaken s
  answerCount ((s'.withEnc { s.enc with count := countAfter s.enc.count s.enc.max (linesNow s) }).withSeq
    { s'.seq with settle := .idle })

/-! ## The Tick interrupt: its three phases, entry and return (R113, R187, R188) -/

/-- Phase P1: both enables inactive. -/
def tickP1 (s : State) : State := drivePins s.pins.dark s

/-- Phase P2: the bus takes the pattern of the digit whose turn it is. -/
def tickP2 (s : State) : State := drivePins { s.pins with seg := Config.seg s.display.shown } s

/-- Phase P3: that digit's enable becomes active and `activeDigit` flips. The Tick ends here: there is nothing to
restore (R188). -/
def tickP3 (s : State) : State :=
  (drivePins (s.pins.light s.display.activeDigit) s).withDisplay
    { s.display with activeDigit := s.display.activeDigit.flip }

/-- Interrupt entry (R187): the request is cleared and phase P1 performed. Nothing is saved and nothing is switched. -/
def enterTick (s : State) : State := tickP1 (s.withTimer { s.timer with tickPending := false })

/-! ## The timer (R192, R193) -/

/-- One clock edge of the timer with compare value `top`: the prescaler advances mod 1024; at its wrap the counter
advances, and at `top` it returns to 0 and raises the request. A stopped timer does not change. -/
def Timer.edge (top : Byte) (t : Timer) : Timer :=
  if t.timerRun then
    let presc := BitVec.ofNat 10 ((t.presc.toNat + 1) % Config.prescale)
    if t.presc.toNat + 1 = Config.prescale then
      if t.tcnt = top then { t with presc := presc, tcnt := 0, tickPending := true }
      else { t with presc := presc, tcnt := t.tcnt + 1 }
    else { t with presc := presc }
  else t

end Sys2Proof.Machine
end

