-- ==== Sys2Proof/Machine/Clock.lean ====
section
/-! DEFINITION. One rising edge of `clk` around the operations: the ports of R42, the frame decoder, the Tick's phases,
the settle counter, the response shifter, the timer and the hardware reset (R90, R93, R185 to R188, R210, R223). -/

namespace Sys2Proof.Machine

/-- What the input ports carry at this edge: the next scripted inputs, or a free value (R12, R42; log 4). -/
def edgeIn (s : State) : EdgeIn :=
  match s.env.edges with
  | e :: _ => e
  | [] => Config.freeEdge s.env.draws

/-- The inputs of this edge are used up. -/
def edgeTaken (s : State) : State :=
  match s.env.edges with
  | _ :: es => s.withEnv { s.env with edges := es }
  | [] => s.withEnv { s.env with draws := s.env.draws + 1 }

/-- The Tick phase performed at this edge, `idle` for none: the next phase of a Tick in progress, or P1 of a pending one
(R187). Phase P3 is the Tick's last clock, so the edge after it is free again (T1 of 95_test_vectors.md; log 15). -/
def phaseAt (s : State) : TickPhase :=
  match s.seq.tickPhase with
  | .p1 => .p2
  | .p2 => .p3
  | .idle | .p3 => if s.timer.tickPending then .p1 else .idle

/-- Performs a Tick phase and records it as the phase in progress (R39(b), R113, R187). -/
def phaseStep (p : TickPhase) (s : State) : State :=
  let s' := match p with
    | .idle => s
    | .p1 => enterTick s
    | .p2 => tickP2 s
    | .p3 => tickP3 s
  s'.withSeq { s'.seq with tickPhase := p }

/-- FG is not held off: no Tick phase at this edge, no settle wait, no response being sent (R93, R186). -/
def fgFree (s : State) : Bool :=
  decide (phaseAt s = .idle) && decide (s.seq.settle = .idle) && s.seq.rsp.isEmpty

/-- The output `cmd_ready` at this edge (R93, R210). -/
def cmdReady (s : State) : Bool := !(edgeIn s).rst && fgFree s

/-- The output `rsp_valid` at this edge: a response byte waits (R90, R210). -/
def rspValid (s : State) : Bool := !(edgeIn s).rst && !s.seq.rsp.isEmpty

/-- The output `rsp_data` while `rsp_valid` is 1 (R42). -/
def rspData (s : State) : Option Byte := s.seq.rsp.head?

/-- The operation that takes effect at this edge, with the bytes behind its frame: the frame decoder holds a complete
frame and FG is not held off (R93, R186(a), R223). -/
def pendingOp (s : State) : Option (Instr × List Byte) :=
  if fgFree s then
    match decode s.seq.frame with
    | .ok p => some p
    | .error _ => none
  else none

/-- The timer's edge (R192, R193). -/
def timerEdge (s : State) : State := s.withTimer (s.timer.edge Config.timerTop)

/-- One clock of the settle counter; the clock after its `SETTLE_CYCLES` clocks is that of the second reading, so a Sample
that closes the gate takes `SETTLE_CYCLES + 2` clocks in all (R39(c), R153, R223; log 22). -/
def settleEdge (s : State) : State :=
  if s.seq.settle = .counting 0 then endWait s else s.withSeq { s.seq with settle := s.seq.settle.next }

/-- One response byte goes from the shifter to HOST (R42, R90). -/
def transferResponse (s : State) : State :=
  match s.seq.rsp with
  | b :: bs => (s.withSeq { s.seq with rsp := bs }).withEnv { s.env with taken := s.env.taken ++ [b] }
  | [] => s

/-- One command byte goes from FG to the frame decoder (R42, R80). -/
def transferCommand (s : State) : State :=
  match s.env.cmd with
  | b :: bs => (s.withSeq { s.seq with frame := s.seq.frame ++ [b] }).withEnv { s.env with cmd := bs }
  | [] => s

/-- The frame of the operation that takes effect leaves the frame decoder (R93). -/
def consumeFrame (op : Option (Instr × List Byte)) (s : State) : State :=
  match op with
  | some (_, rest) => s.withSeq { s.seq with frame := rest }
  | none => s

/-- All that one edge without reset does beside the operation that takes effect at it. Every guard is a value before the
edge; the parts write disjoint state, but that a Tick's entry clears the request after the timer (R185; log 15). -/
def clockEdge (s : State) : State :=
  let s1 := timerEdge (edgeTaken s)
  let s2 := settleEdge (if rspValid s && (edgeIn s).rspReady then transferResponse s1 else s1)
  let s3 := consumeFrame (pendingOp s) (phaseStep (phaseAt s) s2)
  if cmdReady s && (edgeIn s).cmdValid then transferCommand s3 else s3

/-- Hardware reset (R210): every field at its reset value whatever else was happening. What FG has not sent, what HOST has
taken and the environment's answers are not the block's and stay (log 21). -/
def hardReset (s : State) : State :=
  State.reset.withEnv { (edgeTaken s).env with pinTrace := s.env.pinTrace ++ [State.reset.pins] }

/-- The inputs of an edge at which no reset comes and no byte moves. -/
def quietEdge : EdgeIn := { rst := false, cmdValid := false, rspReady := false }

/-- `s` with exactly these bytes in the frame decoder, at an edge where FG is free and nothing else moves (log 5). -/
def placeFrame (bytes : List Byte) (s : State) : State :=
  ((s.withSeq { frame := bytes, tickPhase := .idle, settle := .idle, rsp := [] }).withTimer
    { s.timer with tickPending := false }).withEnv { s.env with edges := quietEdge :: s.env.edges }

/-- `s` with a Tick requested, at an edge where no reset comes and no byte moves (R187; log 16). -/
def placeTick (s : State) : State :=
  ((s.withSeq { s.seq with tickPhase := .idle }).withTimer { s.timer with tickPending := true }).withEnv
    { s.env with edges := quietEdge :: s.env.edges }

end Sys2Proof.Machine
end

