-- ==== Sys2Proof/Machine/Boundary.lean ====
section
/-! DEFINITION. The dispatcher boundary: LED.SET and the unassigned opcodes (43_dispatch.md). -/

namespace Sys2Proof.Machine

/-- LED.SET (R170): the frame is consumed and nothing else happens; the LEDs are not pins of this block. -/
def execLedSet (_c0 _c1 _c2 _c3 : Byte) (s : State) : Result := .next s

/-- An unassigned opcode (R171): consumed, with no effect. -/
def execUnassigned (_opcode : Byte) (s : State) : Result := .next s

end Sys2Proof.Machine
end

