-- ==== Sys2Proof/Machine/Enc.lean ====
section
/-! DEFINITION. The rotary encoder decoder: ENC.INIT, ENC.SAMPLE (42_enc.md). -/

namespace Sys2Proof.Machine

/-- ENC.INIT (R150): count 0, the rail, gate open. The lines are not read. -/
def execEncInit (maxCount : Byte) (s : State) : Result :=
  .next (s.withEnc { count := 0, max := maxCount, gateClosed := false })

/-- ENC.SAMPLE (R152, R153), up to its settle wait: one reading and the gate's branch. A Sample that finds the gate open
and a line low closes the gate and goes into the wait, whose clocks are the block's own (`settleEdge`) and whose end is
`endWait`; every other Sample answers the count at once. -/
def execEncSample (s : State) : Result :=
  let l := linesNow s
  let s' := linesTaken s
  .next (
    if s.enc.gateClosed then
      answerCount (if l.bothHigh then s'.withEnc { s'.enc with gateClosed := false } else s')
    else if l.anyLow then beginWait s'
    else answerCount s')

end Sys2Proof.Machine
end

