-- ==== Sys2Proof/Machine/Log.lean ====
section
/-! DEFINITION. The cyclic log buffer: LOG.INIT, LOG.APPEND, LOG.DRAIN (41_log.md). -/

namespace Sys2Proof.Machine

/-- LOG.INIT (R131): the indices and the level to 0; the ring bytes are not written. -/
def execLogInit (s : State) : Result :=
  .next (s.withLog { s.log with startIx := 0, endIx := 0, level := 0 })

/-- LOG.APPEND (R132, R133): dropped whole, silently, or the text, CR and LF stored. -/
def execLogAppend (text : List Byte) (s : State) : Result :=
  .next (if dropped s.log.level text then s else s.withLog (s.log.pushAll (stored text)))

/-- A Drain of block size `N` with prefix bias `bias` (R135 to R137): the prefix and the payload count are computed from
`level` before the loop; the block is the prefix, the payload and pad up to `N` bytes. -/
def drain (N bias : Nat) (s : State) : Result :=
  let k := payloadCount N s.log.level
  match s.log.popMany k with
  | .ok (payload, log) => .next (emitPad (N - 1 - k) (emit (prefixByte bias k :: payload) (s.withLog log)))
  | .error index => .fault (.ringUnwritten index)

/-- LOG.DRAIN (R136): `N = REPORT_SIZE`. -/
def execLogDrain (s : State) : Result := drain Config.reportSize Config.drainPrefixBias s

end Sys2Proof.Machine
end

