-- ==== Sys2Proof/Machine/Mux.lean ====
section
/-! DEFINITION. The seven-segment multiplexer: MUX.INIT, MUX.SET, TICK (40_mux.md). -/

namespace Sys2Proof.Machine

/-- MUX.INIT (R112): both enables inactive, DisplayState cleared, the timer restarted and running; `seg` unchanged. -/
def execMuxInit (s : State) : Result :=
  .next (((drivePins s.pins.dark s).withDisplay { buffer := 0, ones := 0, tens := 0, activeDigit := .ones }).withTimer
    { timerRun := true, presc := 0, tcnt := 0, tickPending := false })

/-- MUX.SET (R114): `buffer`, `ones` and `tens` change together; no pin, not `activeDigit`, not the timer. -/
def execMuxSet (value : Byte) (s : State) : Result :=
  .next (s.withDisplay { s.display with buffer := value, ones := (digits value).1, tens := (digits value).2 })

/-- TICK (R113) as one operation: entry with phase P1, then P2, then P3. -/
def execTick (s : State) : Result :=
  .next (tickP3 (tickP2 (enterTick s)))

end Sys2Proof.Machine
end

