-- ==== Sys2Proof/Machine/Dispatch.lean ====
section
/-! DEFINITION. One arm per operation (opcode_table.json). -/

namespace Sys2Proof.Machine

def exec (i : Instr) (s : State) : Host.Outcome State Fault Refusal :=
  match i with
  | .logDrain => Sys2Proof.Machine.execLogDrain s
  | .logAppend text => Sys2Proof.Machine.execLogAppend text s
  | .logInit => Sys2Proof.Machine.execLogInit s
  | .muxInit => Sys2Proof.Machine.execMuxInit s
  | .muxSet value => Sys2Proof.Machine.execMuxSet value s
  | .encInit maxCount => Sys2Proof.Machine.execEncInit maxCount s
  | .encSample => Sys2Proof.Machine.execEncSample s
  | .ledSet c0 c1 c2 c3 => Sys2Proof.Machine.execLedSet c0 c1 c2 c3 s
  | .tick => Sys2Proof.Machine.execTick s
  | .unassigned opcode => Sys2Proof.Machine.execUnassigned opcode s

end Sys2Proof.Machine
end

