-- ==== Sys2Proof/Machine/Step.lean ====
section
/-! DEFINITION. One step of the machine is one rising edge of `clk` (R42, R223; log 1). -/

namespace Sys2Proof.Machine

/-- One edge: hardware reset wins over everything (R210); otherwise the timer, the Tick, the ports and the settle counter
move (`clockEdge`), and if a frame is complete and FG is free, its operation takes effect (R93, R223). -/
def step (s : State) : Host.Outcome State Fault Refusal :=
  if (edgeIn s).rst then .next (hardReset s)
  else
    match pendingOp s with
    | some (i, _) => exec i (clockEdge s)
    | none => .next (clockEdge s)

/-- `s` with a table row's frame complete in the frame decoder, so that the next step runs it (log 5); the row of no bits
is TICK, which the timer requests (R89; log 16). -/
def State.withFetchWord (s : State) (nbits w : Nat) : State :=
  if nbits = 0 then placeTick s else placeFrame (tableFrame nbits w) s

end Sys2Proof.Machine
end

