-- ==== Sys2Proof/Safety.lean ====
section
/-! DEFINITION. What a sound state is, in the terms the spec's invariants use, and runs of operations. -/

namespace Sys2Proof.Machine

/-- The digits are those of the last latched value (R23, R24). -/
def DisplayState.sound (d : DisplayState) : Prop :=
  d.ones.toNat = d.buffer.toNat % 10 ∧ d.tens.toNat = d.buffer.toNat / 10 % 10

/-- The buffer holds exactly these bytes, oldest first (R32). -/
def LogBuffer.holds (l : LogBuffer) (bytes : List Byte) : Prop :=
  l.level.toNat = bytes.length ∧
  l.endIx.toNat = (l.startIx.toNat + bytes.length) % Config.ringCapacity ∧
  ∀ j < bytes.length, l.ring.read ((l.startIx.toNat + j) % Config.ringCapacity) = bytes[j]?

/-- The ring is in canonical form and consistent with its indices: at most `C` bytes, all of them written (R32, R70,
R139). -/
def LogBuffer.sound (l : LogBuffer) : Prop :=
  l.ring.wf = true ∧ l.level.toNat ≤ Config.ringCapacity ∧ ∃ bytes, l.holds bytes

/-- `0 <= count <= max` (R33, R154). -/
def EncoderState.sound (e : EncoderState) : Prop := e.count.toNat ≤ e.max.toNat

/-- The counter stays in `0..TIMER_TOP` (R37), and only a running timer has requested a Tick (R184). -/
def Timer.sound (t : Timer) : Prop :=
  t.tcnt.toNat ≤ Config.timerTop.toNat ∧ (t.tickPending = true → t.timerRun = true)

/-- The frame decoder never holds bytes behind a complete frame (R93: framing never slips). -/
def Sequencer.framed (q : Sequencer) : Prop := ∀ i rest, decode q.frame = .ok (i, rest) → rest = []

/-- The enables are never both active, now and at every instant of the pin trace, and both are inactive while phases P1
and P2 stand on the pins (R28, R213). -/
def State.pinsSafe (s : State) : Prop :=
  s.pins.exclusive = true ∧
  (s.seq.tickPhase = .p1 ∨ s.seq.tickPhase = .p2 → s.pins.enOnes = .inactive ∧ s.pins.enTens = .inactive) ∧
  ∀ p ∈ s.env.pinTrace, p.exclusive = true

/-- A settle wait has at most `SETTLE_CYCLES` clocks to go, the gate is closed through it, and its Sample has answered
nothing yet (R39(c), R153). -/
def State.waitSound (s : State) : Prop :=
  ∀ left, s.seq.settle = .counting left → left ≤ Config.settleCycles ∧ s.enc.gateClosed = true ∧ s.seq.rsp = []

/-- The invariant of the whole block: it holds after reset and every step keeps it. -/
structure State.Inv (s : State) : Prop where
  display : s.display.sound
  pins : s.pinsSafe
  log : s.log.sound
  enc : s.enc.sound
  timer : s.timer.sound
  seq : s.seq.framed
  wait : s.waitSound

/-- A Sample in its settle wait brought to its end: the atomic step of R9, without the clocks. -/
def completeWait (s : State) : State :=
  match s.seq.settle with
  | .idle => s
  | .counting _ => endWait s

/-- One foreground operation or one Tick as the atomic step of R9: `exec`, and for ENC.SAMPLE what follows its settle wait
too. -/
def perform (i : Instr) (s : State) : Result :=
  match exec i s with
  | .next t => .next (if i = .encSample then completeWait t else t)
  | .fault f => .fault f
  | .refused r => .refused r

/-- `n` edges. -/
def steps : Nat → State → Result
  | 0, s => .next s
  | n + 1, s =>
    match step s with
    | .next t => steps n t
    | .fault f => .fault f
    | .refused r => .refused r

/-- The operations in order, each on the state the one before it left (R69). -/
def execAll : List Instr → State → Result
  | [], s => .next s
  | i :: is, s =>
    match perform i s with
    | .next t => execAll is t
    | .fault f => .fault f
    | .refused r => .refused r

/-! ## The log buffer as a bounded queue (R138) -/

/-- The queue after one operation, as the spec describes the buffer: a message that fits is added with its CR, LF; a
Drain takes up to `REPORT_SIZE - 1` bytes from the front; LOG.INIT empties it; nothing else touches it. -/
def queueStep : Instr → List Byte → List Byte
  | .logAppend text, q =>
    if q.length + text.length + 2 ≤ Config.ringCapacity then q ++ text ++ [Config.cr, Config.lf] else q
  | .logDrain, q => q.drop (Config.reportSize - 1)
  | .logInit, _ => []
  | .muxInit, q | .muxSet _, q | .encInit _, q | .encSample, q | .ledSet _ _ _ _, q | .tick, q | .unassigned _, q => q

/-- The bytes one operation adds to the queue. -/
def queueGains : Instr → List Byte → List Byte
  | .logAppend text, q =>
    if q.length + text.length + 2 ≤ Config.ringCapacity then text ++ [Config.cr, Config.lf] else []
  | .logDrain, _ | .logInit, _ | .muxInit, _ | .muxSet _, _ | .encInit _, _ | .encSample, _ | .ledSet _ _ _ _, _
  | .tick, _ | .unassigned _, _ => []

/-- The payloads one operation returns: a Drain's, none for the others. -/
def queuePayload : Instr → List Byte → List (List Byte)
  | .logDrain, q => [q.take (Config.reportSize - 1)]
  | .logAppend _, _ | .logInit, _ | .muxInit, _ | .muxSet _, _ | .encInit _, _ | .encSample, _ | .ledSet _ _ _ _, _
  | .tick, _ | .unassigned _, _ => []

/-- The queue after a sequence of operations. -/
def queueAfter : List Instr → List Byte → List Byte
  | [], q => q
  | i :: is, q => queueAfter is (queueStep i q)

/-- All the bytes the queue was given, in order. -/
def accepted : List Instr → List Byte → List Byte
  | [], _ => []
  | i :: is, q => queueGains i q ++ accepted is (queueStep i q)

/-- The payloads of the Drains, in order. -/
def payloads : List Instr → List Byte → List (List Byte)
  | [], _ => []
  | i :: is, q => queuePayload i q ++ payloads is (queueStep i q)

/-- A Drain's block: the prefix byte, the payload and pad of any value, `REPORT_SIZE` bytes in all (R136, R137). -/
def isBlockOf (block payload : List Byte) : Prop :=
  ∃ pad : List Byte, block = prefixByte Config.drainPrefixBias payload.length :: payload ++ pad ∧
    block.length = Config.reportSize

end Sys2Proof.Machine
end

