-- ==== Sys2Proof/Certificates/Slice0/Obligations.lean ====
section
/-! DEFINITION. The statements for the provers. A clause that rests on a decision of the spec (`D<n>`) or on a choice of
this model (`log <n>`) says so in the docstring. -/

open Sys2Proof Sys2Proof.Machine

/-! ## Encoding -/

/-- Every operation that is a frame, with any operands the encoding admits and any bytes behind it, decodes from its own
encoding (R81, R82, R85 to R88). -/
def Obligations.DecodeInvertsEncode : Prop :=
  ∀ (i : Instr) (rest : List Byte), i.wellFormed = true → i.isFrame = true →
    decode (encode i ++ rest) = .ok (i, rest)

/-- Whatever the decoder reads is a well-formed frame, never TICK, and the bytes it read are that operation's encoding
(R82, R88, R89). -/
def Obligations.DecodedBytesAreTheEncoding : Prop :=
  ∀ (bytes : List Byte) (i : Instr) (rest : List Byte), decode bytes = .ok (i, rest) →
    bytes = encode i ++ rest ∧ i.wellFormed = true ∧ i.isFrame = true ∧ i ≠ .tick

/-- The decoder answers exactly when the whole frame is there, and then takes exactly its bytes; the length is known from
byte 0 alone but for format V, where byte 1 gives it (R87). -/
def Obligations.DecoderWaitsForWholeFrame : Prop :=
  (∀ (bytes : List Byte) (n : Nat), frameLength bytes = some n →
    (n ≤ bytes.length → ∃ i, decode bytes = .ok (i, bytes.drop n)) ∧
    (bytes.length < n → ∃ e, decode bytes = .error e)) ∧
  (∀ bytes : List Byte, frameLength bytes = none → ∃ e, decode bytes = .error e) ∧
  (∀ (opcode : Byte) (rest : List Byte), opcode ≠ 0x11 →
    frameLength (opcode :: rest) = frameLength [opcode] ∧ (frameLength [opcode]).isSome = true) ∧
  (∀ (len : Byte) (rest : List Byte), frameLength (0x11 :: len :: rest) = some (2 + len.toNat))

/-- Of the 256 opcode bytes 248 are unassigned, and each of those is a one-byte frame (R88). -/
def Obligations.UnassignedOpcodesAreOneByteFrames : Prop :=
  (∀ (opcode : Byte) (rest : List Byte),
    opcode ∉ ([0x10, 0x11, 0x12, 0x20, 0x21, 0x30, 0x31, 0x81] : List Byte) →
      decode (opcode :: rest) = .ok (.unassigned opcode, rest)) ∧
  ((List.range 256).filter fun n =>
    !([0x10, 0x11, 0x12, 0x20, 0x21, 0x30, 0x31, 0x81] : List Nat).contains n).length = 248

/-- A few words of the opcode map, written out from R82 and R91, decode to what they stand for. -/
def Obligations.SpecFramesDecode : Prop :=
  decode [0x21, 0x2A] = .ok (.muxSet 42, []) ∧
  decode [0x11, 0x02, 0x4F, 0x4B, 0x10] = .ok (.logAppend [0x4F, 0x4B], [0x10]) ∧
  decode [0x30, 0x14] = .ok (.encInit 20, []) ∧
  decode [0x81, 0x01, 0x00, 0x00, 0x01] = .ok (.ledSet 1 0 0 1, []) ∧
  decode [0x7F] = .ok (.unassigned 0x7F, [])

/-! ## The step -/

/-- A STEP RUNS THE DECODED OPERATION (R93, R223): at an edge without reset at which FG is free and the frame decoder holds
a complete frame, the step is that operation on `clockEdge s`. Around it (log 1) `clockEdge` advances the timer by one edge,
takes the frame out of the decoder, ends the Tick phase, uses up the edge's inputs and may bring FG's next command byte in
(that `cmd_ready` is 1 at this very edge is the model's reading, log 19); the display, the pins, the log, the encoder, the
response port, the lines and both histories are untouched. -/
def Obligations.StepRunsTheCompleteFrame : Prop :=
  ∀ (s : State) (i : Instr) (rest : List Byte),
    (edgeIn s).rst = false → phaseAt s = .idle → s.seq.settle = .idle → s.seq.rsp = [] →
    decode s.seq.frame = .ok (i, rest) →
    step s = exec i (clockEdge s) ∧
    (clockEdge s).display = s.display ∧ (clockEdge s).pins = s.pins ∧ (clockEdge s).log = s.log ∧
    (clockEdge s).enc = s.enc ∧ (clockEdge s).timer = s.timer.edge Config.timerTop ∧
    (clockEdge s).seq.settle = .idle ∧ (clockEdge s).seq.rsp = [] ∧ (clockEdge s).seq.tickPhase = .idle ∧
    (clockEdge s).env.lines = s.env.lines ∧ (clockEdge s).env.pinTrace = s.env.pinTrace ∧
    (clockEdge s).env.taken = s.env.taken ∧ (clockEdge s).env.edges = s.env.edges.tail ∧
    (if (edgeIn s).cmdValid = true then
      (clockEdge s).seq.frame = rest ++ s.env.cmd.take 1 ∧ (clockEdge s).env.cmd = s.env.cmd.drop 1
    else (clockEdge s).seq.frame = rest ∧ (clockEdge s).env.cmd = s.env.cmd)

/-- A table row's frame placed in the frame decoder runs at the very next step, from any state (log 5: the placing stands
for FG having sent the frame). The state the operation runs on differs from `s` in two parts: the sequencing state is that
of a block at rest, and the timer, whose pending request the placing clears, is one edge on. -/
def Obligations.PlacedFrameRunsAtNextStep : Prop :=
  ∀ (s : State) (nbits w : Nat) (i : Instr), decodeTableWord nbits w = some i →
    step (s.withFetchWord nbits w) = exec i (clockEdge (s.withFetchWord nbits w)) ∧
    (clockEdge (s.withFetchWord nbits w)).display = s.display ∧
    (clockEdge (s.withFetchWord nbits w)).pins = s.pins ∧
    (clockEdge (s.withFetchWord nbits w)).log = s.log ∧
    (clockEdge (s.withFetchWord nbits w)).enc = s.enc ∧
    (clockEdge (s.withFetchWord nbits w)).timer = ({ s.timer with tickPending := false }).edge Config.timerTop ∧
    (clockEdge (s.withFetchWord nbits w)).seq = { frame := [], tickPhase := .idle, settle := .idle, rsp := [] } ∧
    (clockEdge (s.withFetchWord nbits w)).env = s.env

/-- Hardware reset at any edge (R210, R41; the values are decisions D8, D14, D21, D27 of the spec): every field takes its
reset value whatever else was happening, and while `rst` is 1 neither port handshakes. The ring's contents are
unspecified, so nothing is said of them. That FG's unsent bytes and HOST's taken bytes stay is the model's reading
(log 21). -/
def Obligations.HardwareResetWins : Prop :=
  ∀ s : State, (edgeIn s).rst = true →
    cmdReady s = false ∧ rspValid s = false ∧
    ∃ t, step s = .next t ∧
      t.display = { buffer := 0, ones := 0, tens := 0, activeDigit := .ones } ∧
      t.pins = { seg := 0, enOnes := .inactive, enTens := .inactive } ∧
      t.log.startIx = 0 ∧ t.log.endIx = 0 ∧ t.log.level = 0 ∧
      t.enc = { count := 0, max := 0, gateClosed := false } ∧
      t.timer = { timerRun := false, presc := 0, tcnt := 0, tickPending := false } ∧
      t.seq = { frame := [], tickPhase := .idle, settle := .idle, rsp := [] } ∧
      t.env.cmd = s.env.cmd ∧ t.env.taken = s.env.taken

/-- While FG is held off (a Tick phase at this edge, a settle wait, a response being sent) no operation takes effect and no
command byte moves; the step completes and the settle counter goes on (R93, R186, R220, R39(c)). The encoder and the lines
are untouched but at the clock of a Sample's second reading (R153), the one after the counter has done its clocks (log 22). -/
def Obligations.HeldForegroundDoesNothing : Prop :=
  ∀ s : State, (edgeIn s).rst = false →
    (phaseAt s ≠ .idle ∨ s.seq.settle ≠ .idle ∨ s.seq.rsp ≠ []) →
    cmdReady s = false ∧
    ∃ t, step s = .next t ∧ t.log = s.log ∧
      t.display.buffer = s.display.buffer ∧ t.display.ones = s.display.ones ∧ t.display.tens = s.display.tens ∧
      t.seq.frame = s.seq.frame ∧ t.env.cmd = s.env.cmd ∧ t.seq.settle = s.seq.settle.next ∧
      (s.seq.settle ≠ .counting 0 → t.enc = s.enc ∧ t.env.lines = s.env.lines)

/-- An edge at which nothing is to be done (R93): no reset, FG free, and no complete frame in the frame decoder. Only the
timer counts and FG's next command byte may come in; the display, the pins, the log, the encoder, the response port, the
lines and both histories stay. -/
def Obligations.IdleEdgeChangesNothing : Prop :=
  ∀ s : State, (edgeIn s).rst = false → phaseAt s = .idle → s.seq.settle = .idle → s.seq.rsp = [] →
    (∀ i rest, decode s.seq.frame ≠ .ok (i, rest)) →
    cmdReady s = true ∧
    ∃ t, step s = .next t ∧ t.display = s.display ∧ t.pins = s.pins ∧ t.log = s.log ∧ t.enc = s.enc ∧
      t.timer = s.timer.edge Config.timerTop ∧ t.seq.tickPhase = .idle ∧ t.seq.settle = .idle ∧ t.seq.rsp = [] ∧
      t.env.lines = s.env.lines ∧ t.env.pinTrace = s.env.pinTrace ∧ t.env.taken = s.env.taken ∧
      (if (edgeIn s).cmdValid = true then
        t.seq.frame = s.seq.frame ++ s.env.cmd.take 1 ∧ t.env.cmd = s.env.cmd.drop 1
      else t.seq.frame = s.seq.frame ∧ t.env.cmd = s.env.cmd)

/-- A response byte moves to HOST exactly at an edge at which `rsp_valid` and `rsp_ready` are both 1, the oldest first (R42,
R90). The premise on the settle counter shuts out no state of the invariant: in a settle wait no response waits
(`State.waitSound`). -/
def Obligations.ResponseBytesMoveInOrder : Prop :=
  ∀ (s : State) (b : Byte) (bytes : List Byte), (edgeIn s).rst = false → s.seq.settle ≠ .counting 0 →
    s.seq.rsp = b :: bytes →
    rspValid s = true ∧ rspData s = some b ∧
    ∃ t, step s = .next t ∧
      (if (edgeIn s).rspReady = true then t.seq.rsp = bytes ∧ t.env.taken = s.env.taken ++ [b]
      else t.seq.rsp = b :: bytes ∧ t.env.taken = s.env.taken)

/-- A command byte is never lost and never duplicated (R93): at every edge without reset, the bytes waiting in FG and in
the frame decoder are those before it, less the encoding of the operation that took effect. -/
def Obligations.CommandBytesNeverLost : Prop :=
  ∀ s t : State, (edgeIn s).rst = false → step s = .next t →
    s.seq.frame ++ s.env.cmd =
      (match pendingOp s with
        | some (i, _) => encode i
        | none => []) ++ (t.seq.frame ++ t.env.cmd)

/-- No response byte is lost, repeated, reordered or invented (R90): what HOST has taken, followed by what waits in the
shifter, grows at its end by what this edge emits and by nothing else. LOG.DRAIN emits its block of 64 bytes (R135 to R137,
decisions D18, D20), an ENC.SAMPLE the count, at once or at its second reading (R153), and nothing else emits. -/
def Obligations.ResponseBytesNeverLost : Prop :=
  ∀ s t : State, (edgeIn s).rst = false → step s = .next t →
    ∃ new, t.env.taken ++ t.seq.rsp = (s.env.taken ++ s.seq.rsp) ++ new ∧
      (match pendingOp s with
        | some (.logDrain, _) =>
          new.length = 64 ∧
          new.head? = some (if s.log.level = 0 then 0 else BitVec.ofNat 8 (min s.log.level.toNat 63 - 1)) ∧
          ∀ j < min s.log.level.toNat 63, new[j + 1]? = s.log.ring.read ((s.log.startIx.toNat + j) % 256)
        | some (.encSample, _) => new = if t.seq.settle = .idle then [t.enc.count] else []
        | some _ => new = []
        | none => new = if s.seq.settle = .counting 0 then [t.enc.count] else [])

/-! ## The multiplexer -/

/-- `digits(v)` (R111): remainder and quotient, both in 0..9, the hundreds lost. -/
def Obligations.DigitsDecomposeModulo : Prop :=
  ∀ v : Byte,
    (digits v).1.toNat = v.toNat % 10 ∧ (digits v).2.toNat = v.toNat / 10 % 10 ∧
    (digits v).1.toNat ≤ 9 ∧ (digits v).2.toNat ≤ 9 ∧
    (v.toNat ≤ 99 → (digits v).2.toNat = v.toNat / 10)

/-- MUX.INIT (R112; the cleared digits, ONES first and the restarted counts are decisions D8 and D11 of the spec): its
frame is `20`; both enables go inactive, the bus stays, the timer runs from zero with no request, and nothing else
changes but the pin trace. That the trace gains an entry even where the pins already had these values is the model's choice
(log 17). -/
def Obligations.MuxInitEffect : Prop :=
  (∀ rest, decode (0x20 :: rest) = .ok (.muxInit, rest)) ∧
  ∀ s : State, ∃ t, exec .muxInit s = .next t ∧
    t.display = { buffer := 0, ones := 0, tens := 0, activeDigit := .ones } ∧
    t.pins = { seg := s.pins.seg, enOnes := .inactive, enTens := .inactive } ∧
    t.timer = { timerRun := true, presc := 0, tcnt := 0, tickPending := false } ∧
    t.log = s.log ∧ t.enc = s.enc ∧ t.seq = s.seq ∧
    t.env = { s.env with pinTrace := s.env.pinTrace ++ [t.pins] }

/-- MUX.SET (R114; the operand's width, the meaning of `buffer` and the atomic step are decisions D6, D7, D9 of the spec):
its frame is `21 value`; `buffer`, `ones` and `tens` change together for every value `0..255`; no pin, not `activeDigit`,
not the timer, nothing else. -/
def Obligations.MuxSetEffect : Prop :=
  (∀ (value : Byte) (rest : List Byte), decode (0x21 :: value :: rest) = .ok (.muxSet value, rest)) ∧
  ∀ (value : Byte) (s : State), ∃ t, exec (.muxSet value) s = .next t ∧
    t.display.buffer = value ∧ t.display.ones.toNat = value.toNat % 10 ∧
    t.display.tens.toNat = value.toNat / 10 % 10 ∧ t.display.activeDigit = s.display.activeDigit ∧
    t.pins = s.pins ∧ t.log = s.log ∧ t.enc = s.enc ∧ t.timer = s.timer ∧ t.seq = s.seq ∧ t.env = s.env

/-- TICK (R113): three pin values in order, disable-all, set-data, enable-one, all in the pin trace; `activeDigit` flips;
`ones`, `tens`, `buffer` and all else stay. That the Tick's request is cleared with it is the model's reading (log 16). -/
def Obligations.TickEffect : Prop :=
  ∀ s : State, ∃ t, exec .tick s = .next t ∧
    (match s.display.activeDigit with
      | .ones =>
        t.display.activeDigit = .tens ∧
        t.env.pinTrace = s.env.pinTrace ++
          [{ seg := s.pins.seg, enOnes := .inactive, enTens := .inactive },
           { seg := Config.seg s.display.ones, enOnes := .inactive, enTens := .inactive },
           { seg := Config.seg s.display.ones, enOnes := .active, enTens := .inactive }] ∧
        t.pins = { seg := Config.seg s.display.ones, enOnes := .active, enTens := .inactive }
      | .tens =>
        t.display.activeDigit = .ones ∧
        t.env.pinTrace = s.env.pinTrace ++
          [{ seg := s.pins.seg, enOnes := .inactive, enTens := .inactive },
           { seg := Config.seg s.display.tens, enOnes := .inactive, enTens := .inactive },
           { seg := Config.seg s.display.tens, enOnes := .inactive, enTens := .active }] ∧
        t.pins = { seg := Config.seg s.display.tens, enOnes := .inactive, enTens := .active }) ∧
    t.display.buffer = s.display.buffer ∧ t.display.ones = s.display.ones ∧ t.display.tens = s.display.tens ∧
    t.timer = { s.timer with tickPending := false } ∧ t.log = s.log ∧ t.enc = s.enc ∧ t.seq = s.seq ∧
    t.env = { s.env with pinTrace := t.env.pinTrace }

/-- R116: after MUX.SET of any value, from either state, two Ticks drive the pattern of `value mod 10` on the ones digit
and of `(value div 10) mod 10` on the tens digit, one during each, and at no instant are both enables active. -/
def Obligations.SetThenTwoTicksShowBothDigits : Prop :=
  ∀ (value : Byte) (s : State), ∃ t driven, execAll [.muxSet value, .tick, .tick] s = .next t ∧
    t.env.pinTrace = s.env.pinTrace ++ driven ∧ driven.length = 6 ∧ (∀ p ∈ driven, p.exclusive = true) ∧
    (match s.display.activeDigit with
      | .ones =>
        driven[2]? = some ⟨Config.seg (BitVec.ofNat 4 (value.toNat % 10)), .active, .inactive⟩ ∧
        driven[5]? = some ⟨Config.seg (BitVec.ofNat 4 (value.toNat / 10 % 10)), .inactive, .active⟩
      | .tens =>
        driven[2]? = some ⟨Config.seg (BitVec.ofNat 4 (value.toNat / 10 % 10)), .inactive, .active⟩ ∧
        driven[5]? = some ⟨Config.seg (BitVec.ofNat 4 (value.toNat % 10)), .active, .inactive⟩)

/-- R117: `2n` Ticks restore `activeDigit`, `2n + 1` leave it flipped. -/
def Obligations.EvenTicksRestoreTheDigit : Prop :=
  ∀ (n : Nat) (s : State),
    (∃ t, execAll (List.replicate (2 * n) .tick) s = .next t ∧ t.display.activeDigit = s.display.activeDigit) ∧
    (∃ t, execAll (List.replicate (2 * n + 1) .tick) s = .next t ∧
      t.display.activeDigit = s.display.activeDigit.flip)

/-- An enable pin is at the active level exactly when its logical value is active (R27), whatever that level is; so the two
pins are never both at it (R28). -/
def Obligations.EnablePinsNeverBothAtActiveLevel : Prop :=
  (∀ e : Enable, e.level = Config.enActiveLevel ↔ e = .active) ∧
  ∀ p : Pins, p.exclusive = true → ¬(p.enOnes.level = Config.enActiveLevel ∧ p.enTens.level = Config.enActiveLevel)

/-! ## The log buffer -/

/-- LOG.INIT (R131; the indices' value is decision D21 of the spec): its frame is `12`; indices and level go to 0, the
ring bytes and all else stay. -/
def Obligations.LogInitEffect : Prop :=
  (∀ rest, decode (0x12 :: rest) = .ok (.logInit, rest)) ∧
  ∀ s : State, ∃ t, exec .logInit s = .next t ∧
    t.log = { ring := s.log.ring, startIx := 0, endIx := 0, level := 0 } ∧
    t.display = s.display ∧ t.pins = s.pins ∧ t.enc = s.enc ∧ t.timer = s.timer ∧ t.seq = s.seq ∧ t.env = s.env

/-- LOG.APPEND of any message a frame can carry (R132, R133, R134, R65; decisions D16, D17 of the spec): with
`level + L + 2 > 256` nothing at all changes; otherwise the text and the two terminator bytes stand at `(end + j) mod 256`,
`end` and `level` advance by `L + 2`, and every other ring byte and all else stay. -/
def Obligations.AppendStoresWholeOrNothing : Prop :=
  ∀ (text : List Byte) (s : State), text.length ≤ 255 →
    (256 < s.log.level.toNat + text.length + 2 → exec (.logAppend text) s = .next s) ∧
    (s.log.level.toNat + text.length + 2 ≤ 256 →
      ∃ t, exec (.logAppend text) s = .next t ∧
        t.log.startIx = s.log.startIx ∧
        t.log.endIx.toNat = (s.log.endIx.toNat + text.length + 2) % 256 ∧
        t.log.level.toNat = s.log.level.toNat + text.length + 2 ∧
        (∀ j < text.length + 2,
          t.log.ring.read ((s.log.endIx.toNat + j) % 256) = (text ++ [Config.cr, Config.lf])[j]?) ∧
        (∀ a, (∀ j < text.length + 2, a ≠ (s.log.endIx.toNat + j) % 256) →
          t.log.ring.read a = s.log.ring.read a) ∧
        t.display = s.display ∧ t.pins = s.pins ∧ t.enc = s.enc ∧ t.timer = s.timer ∧ t.seq = s.seq ∧ t.env = s.env)

/-- LOG.DRAIN (R135, R136; the bias is decision D18 of the spec, the block size D20): when the ring holds a value at each
of the `k = min(level, 63)` positions from `start`, the response gains a block of exactly 64 bytes: the prefix (0 for
`k = 0`, else `k - 1`), those `k` bytes in order, and pad of any value. `start` and `level` move by `k`; the ring bytes,
`end` and all else stay, but for the counter of free values. -/
def Obligations.DrainReturnsOldestBytes : Prop :=
  (∀ rest, decode (0x10 :: rest) = .ok (.logDrain, rest)) ∧
  ∀ (s : State) (payload : List Byte), payload.length = min s.log.level.toNat 63 →
    (∀ j < payload.length, s.log.ring.read ((s.log.startIx.toNat + j) % 256) = payload[j]?) →
    ∃ t pad, exec .logDrain s = .next t ∧
      (payload ++ pad).length = 63 ∧
      t.seq = { s.seq with rsp :=
        s.seq.rsp ++ ((if payload = [] then 0 else BitVec.ofNat 8 (payload.length - 1)) :: payload ++ pad) } ∧
      t.log.ring = s.log.ring ∧ t.log.endIx = s.log.endIx ∧
      t.log.startIx.toNat = (s.log.startIx.toNat + payload.length) % 256 ∧
      t.log.level.toNat = s.log.level.toNat - payload.length ∧
      t.display = s.display ∧ t.pins = s.pins ∧ t.enc = s.enc ∧ t.timer = s.timer ∧
      t.env = { s.env with draws := t.env.draws }

/-- The one fault of the model, and when it comes (R70; log 6): LOG.DRAIN stops exactly when one of the positions it would
read holds no value, and then names such a position. -/
def Obligations.DrainFaultsExactlyOnUnwrittenByte : Prop :=
  ∀ s : State,
    ((∃ f, exec .logDrain s = .fault f) ↔
      ∃ j < min s.log.level.toNat 63, s.log.ring.read ((s.log.startIx.toNat + j) % 256) = none) ∧
    (∀ a, exec .logDrain s = .fault (.ringUnwritten a) → s.log.ring.read a = none)

/-- The FIFO property (R138): any sequence of Appends and Drains runs to its end; its responses are one 64-byte block per
Drain, carrying the payloads in order; and the bytes held at first with all the bytes accepted since are, in order, the
payloads returned and the bytes still held. -/
def Obligations.LogBufferIsFifo : Prop :=
  ∀ (ops : List Instr) (s : State) (held : List Byte),
    (∀ i ∈ ops, i = .logDrain ∨ ∃ text, i = .logAppend text) → s.log.sound → s.log.holds held →
    ∃ t blocks, execAll ops s = .next t ∧
      t.seq.rsp = s.seq.rsp ++ blocks.flatten ∧ List.Forall₂ isBlockOf blocks (payloads ops held) ∧
      t.log.sound ∧ t.log.holds (queueAfter ops held) ∧
      held ++ accepted ops held = (payloads ops held).flatten ++ queueAfter ops held

/-! ## The encoder decoder -/

/-- ENC.INIT (R150): its frame is `30 maxCount`; count 0, the rail, gate open, and nothing else; the lines are not read. -/
def Obligations.EncInitEffect : Prop :=
  (∀ (maxCount : Byte) (rest : List Byte), decode (0x30 :: maxCount :: rest) = .ok (.encInit maxCount, rest)) ∧
  ∀ (maxCount : Byte) (s : State), ∃ t, exec (.encInit maxCount) s = .next t ∧
    t.enc = { count := 0, max := maxCount, gateClosed := false } ∧
    t.display = s.display ∧ t.pins = s.pins ∧ t.log = s.log ∧ t.timer = s.timer ∧ t.seq = s.seq ∧ t.env = s.env

/-- ENC.SAMPLE (R152, R153; the two readings, the order of the two steps and the place of the re-opening test are decisions
D22 to D25 of the spec). With `l0` the first reading: an open gate and a low line close the gate and start the settle wait,
with the count and the response still to come (`u`); and the whole Sample, as the atomic step of R9, ends with the count the
second reading `l1` gives, A low counting up to `max`, then B low counting down to 0 (`t`). An open gate and no low line
change nothing; a closed gate opens exactly when both lines are high; neither waits. The response gains one byte, the count
after all updates. -/
def Obligations.SampleEffect : Prop :=
  (∀ rest, decode (0x31 :: rest) = .ok (.encSample, rest)) ∧
  ∀ s : State, s.seq.settle = .idle →
    ∃ u t, exec .encSample s = .next u ∧ perform .encSample s = .next t ∧
      (let l0 := linesNow s
       let l1 := linesNow (linesTaken s)
       let up := if l1.a = false ∧ s.enc.count.toNat < s.enc.max.toNat then s.enc.count.toNat + 1 else s.enc.count.toNat
       let down := if l1.b = false ∧ 0 < up then up - 1 else up
       if s.enc.gateClosed = false ∧ (l0.a = false ∨ l0.b = false) then
         u.enc = { s.enc with gateClosed := true } ∧ u.env = (linesTaken s).env ∧
         u.seq = { s.seq with settle := .counting Config.settleCycles } ∧
         t.enc.gateClosed = true ∧ t.enc.count.toNat = down ∧ t.env = (linesTaken (linesTaken s)).env
       else
         u = t ∧ t.enc.gateClosed = (s.enc.gateClosed && !(l0.a && l0.b)) ∧ t.enc.count = s.enc.count ∧
         t.env = (linesTaken s).env) ∧
      t.enc.max = s.enc.max ∧ t.seq = { s.seq with rsp := s.seq.rsp ++ [t.enc.count] } ∧
      t.display = s.display ∧ t.pins = s.pins ∧ t.log = s.log ∧ t.timer = s.timer ∧
      u.display = s.display ∧ u.pins = s.pins ∧ u.log = s.log ∧ u.timer = s.timer

/-- The settle wait (R39(c), R153, R223, R186(b)), Ticks and all: while the counter, `n` clocks from its end, does its
clocks, encoder and lines stay and nothing is answered; the edge after them (log 22) takes the second reading, counts by
it, keeps the gate closed and answers the count. With `n = SETTLE_CYCLES` it is what ENC.SAMPLE starts. -/
def Obligations.SettleWaitThenSecondReading : Prop :=
  ∀ (n : Nat) (s : State) (coming later : List EdgeIn) (l : Lines) (answers : List Lines),
    s.seq.settle = .counting n → s.seq.rsp = [] → s.env.edges = coming ++ later → coming.length = n + 1 →
    (∀ e ∈ coming, e.rst = false) → s.env.lines = l :: answers →
    (∀ m ≤ n, ∃ t, steps m s = .next t ∧ t.seq.settle = .counting (n - m) ∧ t.enc = s.enc ∧ t.seq.rsp = [] ∧
      t.env.lines = s.env.lines) ∧
    ∃ t, steps (n + 1) s = .next t ∧ t.seq.settle = .idle ∧
      (let up := if l.a = false ∧ s.enc.count.toNat < s.enc.max.toNat then s.enc.count.toNat + 1 else s.enc.count.toNat
       t.enc.count.toNat = if l.b = false ∧ 0 < up then up - 1 else up) ∧
      t.enc.max = s.enc.max ∧ t.enc.gateClosed = s.enc.gateClosed ∧ t.seq.rsp = [t.enc.count] ∧ t.env.lines = answers ∧
      t.log = s.log ∧ t.seq.frame = s.seq.frame ∧ t.env.cmd = s.env.cmd

/-- `lines()` answers what the environment has said it will, one answer per call, in order (R151; the queue that holds the
answers is the model's, log 3). -/
def Obligations.LinesAnswerInOrder : Prop :=
  ∀ (s : State) (l : Lines) (later : List Lines), s.env.lines = l :: later →
    linesNow s = l ∧ (linesTaken s).env.lines = later ∧ (linesTaken s).enc = s.enc

/-- Saturation (R154): over any number of Samples, whatever the lines read, the count stays within `[0, max]` and the rail
does not move; every Sample completes. -/
def Obligations.CountStaysWithinRails : Prop :=
  ∀ (n : Nat) (s : State), s.enc.count.toNat ≤ s.enc.max.toNat →
    ∃ t, execAll (List.replicate n .encSample) s = .next t ∧
      t.enc.count.toNat ≤ t.enc.max.toNat ∧ t.enc.max = s.enc.max

/-- The source's example for every rail and every number of cycles (R154): `n` cycles, each seen once with A low before and
after the wait and once at rest, from an open gate, count up by `n` and stop at `max`. -/
def Obligations.CyclesOnACountUpToTheRail : Prop :=
  ∀ (n : Nat) (s : State) (later : List Lines),
    s.enc.count.toNat ≤ s.enc.max.toNat → s.enc.gateClosed = false → s.seq.settle = .idle →
    s.env.lines = (List.replicate n [⟨false, true⟩, ⟨false, true⟩, ⟨true, true⟩]).flatten ++ later →
    ∃ t, execAll (List.replicate (2 * n) .encSample) s = .next t ∧
      t.enc.count.toNat = min (s.enc.count.toNat + n) s.enc.max.toNat ∧ t.enc.gateClosed = false ∧
      t.env.lines = later

/-- A held line counts once (R153 corner (g), R152; vector E20): from an open gate, the first Sample that sees a line low
counts by its second reading and closes the gate, and any number of further Samples that each see a line low leave the
encoder as it is. The second clause says the latter from any closed gate. -/
def Obligations.HeldLineCountsOnce : Prop :=
  (∀ (seen : List Lines) (s : State) (l0 l1 : Lines) (later : List Lines),
    s.enc.gateClosed = false → s.seq.settle = .idle → (l0.a = false ∨ l0.b = false) →
    (∀ l ∈ seen, l.a = false ∨ l.b = false) → s.env.lines = l0 :: l1 :: (seen ++ later) →
    ∃ t, execAll (List.replicate (seen.length + 1) .encSample) s = .next t ∧
      (let up := if l1.a = false ∧ s.enc.count.toNat < s.enc.max.toNat then s.enc.count.toNat + 1 else s.enc.count.toNat
       t.enc.count.toNat = if l1.b = false ∧ 0 < up then up - 1 else up) ∧
      t.enc.max = s.enc.max ∧ t.enc.gateClosed = true ∧ t.env.lines = later) ∧
  ∀ (seen : List Lines) (s : State) (later : List Lines), s.enc.gateClosed = true → s.seq.settle = .idle →
    (∀ l ∈ seen, l.a = false ∨ l.b = false) → s.env.lines = seen ++ later →
    ∃ t, execAll (List.replicate seen.length .encSample) s = .next t ∧ t.enc = s.enc ∧ t.env.lines = later

/-! ## The dispatcher boundary -/

/-- LED.SET and an unassigned opcode are consumed and change nothing, whatever their bytes (R170, R171; decisions D5 and
D4 of the spec); LED.SET's operand bytes are never taken as opcodes. -/
def Obligations.ExternalAndUnassignedChangeNothing : Prop :=
  (∀ (c0 c1 c2 c3 : Byte) (s : State), exec (.ledSet c0 c1 c2 c3) s = .next s) ∧
  (∀ (opcode : Byte) (s : State), exec (.unassigned opcode) s = .next s) ∧
  (∀ (c0 c1 c2 c3 : Byte) (rest : List Byte),
    decode (0x81 :: c0 :: c1 :: c2 :: c3 :: rest) = .ok (.ledSet c0 c1 c2 c3, rest))

/-! ## The timer and the Tick interrupt -/

/-- The timer's period (R192 to R194; the clear-on-match rule is decision D11 of the spec), for any compare value: from the
counts at the start of a period, with or without a request standing, after `n` edges short of the period the counts are
`n mod 1024` and `n div 1024` and no request has been raised, and the edge that completes the period clears both and raises
it. Those are again the counts at the start of a period, so requests are one period apart for ever. With the compare value
250 the period is 257,024 edges. -/
def Obligations.TimerRequestsOncePerPeriod : Prop :=
  (∀ (top : Byte) (pending : Bool) (n : Nat), n < 1024 * (top.toNat + 1) →
    (Timer.edge top)^[n] { timerRun := true, presc := 0, tcnt := 0, tickPending := pending } =
      { timerRun := true, presc := BitVec.ofNat 10 (n % 1024), tcnt := BitVec.ofNat 8 (n / 1024),
        tickPending := pending }) ∧
  (∀ (top : Byte) (pending : Bool),
    (Timer.edge top)^[1024 * (top.toNat + 1)] { timerRun := true, presc := 0, tcnt := 0, tickPending := pending } =
      { timerRun := true, presc := 0, tcnt := 0, tickPending := true }) ∧
  1024 * (Config.timerTop.toNat + 1) = 257024

/-- At every edge without reset the timer's counts advance by the timer's rule, whatever else happens, but for a MUX.INIT
that takes effect at that edge, which wins over a period that completes there (R192, R193, R186(d)). The edge of a Tick's
entry clears the request (R185, R187), one that a period completing at that very edge raises too (the model's reading,
log 15). -/
def Obligations.TimerAdvancesAtEveryEdge : Prop :=
  ∀ s t : State, (edgeIn s).rst = false → step s = .next t →
    ((∃ rest, pendingOp s = some (.muxInit, rest)) →
      t.timer = { timerRun := true, presc := 0, tcnt := 0, tickPending := false }) ∧
    ((∀ rest, pendingOp s ≠ some (.muxInit, rest)) →
      t.timer.timerRun = s.timer.timerRun ∧ t.timer.presc = (s.timer.edge Config.timerTop).presc ∧
      t.timer.tcnt = (s.timer.edge Config.timerTop).tcnt ∧
      (phaseAt s ≠ .p1 → t.timer.tickPending = (s.timer.edge Config.timerTop).tickPending) ∧
      (phaseAt s = .p1 → t.timer.tickPending = false))

/-- No Tick before the first MUX.INIT (R184, R196(a)): while the timer is stopped with no request and no Tick in progress,
a step keeps it so and drives no pin, unless the operation that takes effect is MUX.INIT. -/
def Obligations.NoTickBeforeMuxInit : Prop :=
  ∀ s t : State, (edgeIn s).rst = false → s.timer.timerRun = false → s.timer.tickPending = false →
    s.seq.tickPhase = .idle → (∀ rest, pendingOp s ≠ some (.muxInit, rest)) → step s = .next t →
    t.timer = s.timer ∧ t.seq.tickPhase = .idle ∧ t.pins = s.pins ∧ t.env.pinTrace = s.env.pinTrace

/-- Interrupt entry (R185, R187): with a request pending and no Tick in progress, the next edge clears the request (one that
a period completing at that edge raises too, log 15) and performs phase P1 and nothing of FG's, even where a frame is
complete (R186(a)). A Sample in its settle wait proceeds (R186(b)): only the clock of its second reading changes the
encoder. -/
def Obligations.PendingRequestEntersTick : Prop :=
  ∀ s : State, (edgeIn s).rst = false → s.timer.tickPending = true → s.seq.tickPhase = .idle →
    ∃ t, step s = .next t ∧ t.timer.tickPending = false ∧ t.seq.tickPhase = .p1 ∧
      t.pins = { seg := s.pins.seg, enOnes := .inactive, enTens := .inactive } ∧
      t.env.pinTrace = s.env.pinTrace ++ [t.pins] ∧ t.display = s.display ∧ t.log = s.log ∧
      t.seq.frame = s.seq.frame ∧ t.seq.settle = s.seq.settle.next ∧ (s.seq.settle ≠ .counting 0 → t.enc = s.enc)

/-- REFINEMENT (R113, R187, R188, R9): three edges from a pending request are one TICK. They complete; display, pins and
pin trace end as the operation TICK leaves them; FG is held off throughout, so the log and the command bytes are untouched,
and so is the encoder where no Sample is in its settle wait (one that is proceeds, R186(b)); and the Tick is over
(log 15). -/
def Obligations.ThreeEdgesAreOneTick : Prop :=
  ∀ s : State, s.timer.tickPending = true → s.seq.tickPhase = .idle → (edgeIn s).rst = false →
    ∃ s1, step s = .next s1 ∧ ((edgeIn s1).rst = false →
      ∃ s2, step s1 = .next s2 ∧ ((edgeIn s2).rst = false →
        ∃ s3 u, step s2 = .next s3 ∧ exec .tick s = .next u ∧
          s3.display = u.display ∧ s3.pins = u.pins ∧ s3.env.pinTrace = u.env.pinTrace ∧
          s3.log = u.log ∧ (s.seq.settle = .idle → s3.enc = u.enc) ∧ s3.seq.frame = u.seq.frame ∧ s3.env.cmd = u.env.cmd ∧
          s3.seq.tickPhase = .p3 ∧ (s3.timer.tickPending = false → phaseAt s3 = .idle)))

/-- Treating a foreground operation of the log buffer or the encoder as atomic loses nothing (R9): a TICK just before it
and a TICK just after it give the same, the response, the trace and a fault included; ENC.SAMPLE is taken whole, its
settle wait with it (`perform`). -/
def Obligations.TickCommutesWithLogAndEncoder : Prop :=
  ∀ (i : Instr) (s : State),
    (i = .logInit ∨ i = .logDrain ∨ (∃ text, i = .logAppend text) ∨ (∃ m, i = .encInit m) ∨ i = .encSample) →
    execAll [i, .tick] s = execAll [.tick, i] s

/-- Who shares what (R67, R156): the log operations touch no display, pin, encoder or timer state; the encoder operations
no display, pin, log or timer state, so the count reaches no digit; the multiplexer's operations and TICK no log, encoder
or sequencing state. -/
def Obligations.SubBlocksAreDisjoint : Prop :=
  ∀ (i : Instr) (s t : State), exec i s = .next t →
    ((i = .logInit ∨ i = .logDrain ∨ ∃ text, i = .logAppend text) →
      t.display = s.display ∧ t.pins = s.pins ∧ t.enc = s.enc ∧ t.timer = s.timer) ∧
    (((∃ m, i = .encInit m) ∨ i = .encSample) →
      t.display = s.display ∧ t.pins = s.pins ∧ t.log = s.log ∧ t.timer = s.timer) ∧
    ((i = .muxInit ∨ (∃ v, i = .muxSet v) ∨ i = .tick) →
      t.log = s.log ∧ t.enc = s.enc ∧ t.seq = s.seq)

/-! ## Reset and the invariants -/

/-- The block after reset (R41, R211; the values are decisions D8, D14, D21, D27 of the spec). The ring's contents are
unspecified; that no index holds a value is the model's (log 6). -/
def Obligations.StateAfterReset : Prop :=
  State.reset.display = { buffer := 0, ones := 0, tens := 0, activeDigit := .ones } ∧
  State.reset.pins = { seg := 0, enOnes := .inactive, enTens := .inactive } ∧
  State.reset.log.startIx = 0 ∧ State.reset.log.endIx = 0 ∧ State.reset.log.level = 0 ∧
  State.reset.enc = { count := 0, max := 0, gateClosed := false } ∧
  State.reset.timer = { timerRun := false, presc := 0, tcnt := 0, tickPending := false } ∧
  State.reset.seq = { frame := [], tickPhase := .idle, settle := .idle, rsp := [] } ∧
  fgFree State.reset = true

/-- The invariant holds after reset. -/
def Obligations.ResetSatisfiesTheInvariant : Prop := State.reset.Inv

/-- The digits are always those of the last latched value, hence in 0..9 (R23, R24). -/
def Obligations.EveryStepKeepsTheDigits : Prop :=
  ∀ s t : State, s.display.sound → step s = .next t →
    t.display.sound ∧ t.display.ones.toNat ≤ 9 ∧ t.display.tens.toNat ≤ 9

/-- The enables are never both active, at any instant, the instants inside a Tick included (R28, R213): it is so after
reset, and every step keeps it. -/
def Obligations.EveryStepKeepsEnablesExclusive : Prop :=
  State.reset.pinsSafe ∧ ∀ s t : State, s.pinsSafe → step s = .next t → t.pinsSafe

/-- The ring stays consistent (R32, R70, R73, R139): in canonical form, at most 256 bytes, `end = (start + level) mod 256`,
and every valid position written. -/
def Obligations.EveryStepKeepsTheRing : Prop :=
  ∀ s t : State, s.log.sound → step s = .next t → t.log.sound

/-- `0 <= count <= max` (R33, R154), the timer's counter stays in range and only a running timer has requested a Tick
(R37, R184), the frame decoder never holds bytes behind a complete frame (R93), and a settle wait keeps its bound, its
closed gate and an empty response port (R39(c), R153). -/
def Obligations.EveryStepKeepsCountTimerAndFraming : Prop :=
  ∀ s t : State, step s = .next t →
    (s.enc.sound → t.enc.sound) ∧ (s.timer.sound → t.timer.sound) ∧ (s.seq.framed → t.seq.framed) ∧
    (s.waitSound → t.waitSound)

/-- Every operation completes in every sound state (R180: no fault, no refusal, no error). -/
def Obligations.EveryOperationCompletes : Prop :=
  ∀ (i : Instr) (s : State), s.log.sound → ∃ t, exec i s = .next t

/-- THE BLOCK RUNS FOR EVER (R10, R180): from every state of the invariant, whatever the inputs, a step answers a next
state, and the invariant holds there. -/
def Obligations.BlockNeverStops : Prop :=
  ∀ s : State, s.Inv → ∃ t, step s = .next t ∧ t.Inv
end

