-- ==== Sys2Proof/Laws/Ring.lean ====
section
/-! SUPPORT. The laws of the ring as memory, and what the loops of LOG.APPEND and LOG.DRAIN do, said once. -/

namespace Sys2Proof.Machine

theorem ringCapacity_eq : Config.ringCapacity = 256 := rfl

theorem nextIndex_toNat (i : Byte) : (nextIndex i).toNat = (i.toNat + 1) % 256 := by
  simp [nextIndex, ringCapacity_eq]

/-! ## Reading and writing one byte -/

@[simp] theorem Memory.read_nil (a : Nat) : Memory.read [] a = none := rfl

theorem Memory.read_write_same (m : Memory) (a : Nat) (b : Byte) : (m.write a b).read a = some b := by
  induction m with
  | nil => simp [Memory.write, Memory.read]
  | cons cell m ih =>
    obtain ⟨k, c⟩ := cell
    simp only [Memory.write]
    split
    · simp [Memory.read]
    · split
      · simp [Memory.read]
      · rw [Memory.read, if_neg (by omega), ih]

theorem Memory.read_write_other (m : Memory) (a a' : Nat) (b : Byte) (h : a' ≠ a) :
    (m.write a b).read a' = m.read a' := by
  induction m with
  | nil => simp [Memory.write, Memory.read, Ne.symm h]
  | cons cell m ih =>
    obtain ⟨k, c⟩ := cell
    simp only [Memory.write]
    split
    · simp [Memory.read, Ne.symm h]
    · split
      · rename_i heq
        simp [Memory.read, ← heq, Ne.symm h]
      · simp only [Memory.read, ih]

/-- Writing an index of the ring keeps the indices strictly rising from any bound the index respects. -/
theorem Memory.risingFrom_write (m : Memory) (lo a : Nat) (b : Byte) (h : m.risingFrom lo = true) (hlo : lo ≤ a)
    (ha : a < Config.ringCapacity) : (m.write a b).risingFrom lo = true := by
  induction m generalizing lo with
  | nil => simp [Memory.write, Memory.risingFrom, hlo, ha]
  | cons cell m ih =>
    obtain ⟨k, c⟩ := cell
    simp only [Memory.risingFrom, Bool.and_eq_true, decide_eq_true_eq] at h
    obtain ⟨⟨h1, h2⟩, h3⟩ := h
    simp only [Memory.write]
    split
    · rename_i hlt
      simp only [Memory.risingFrom, Bool.and_eq_true, decide_eq_true_eq]
      exact ⟨⟨hlo, ha⟩, ⟨hlt, h2⟩, h3⟩
    · split
      · rename_i heq
        subst heq
        simp only [Memory.risingFrom, Bool.and_eq_true, decide_eq_true_eq]
        exact ⟨⟨h1, h2⟩, h3⟩
      · simp only [Memory.risingFrom, Bool.and_eq_true, decide_eq_true_eq]
        exact ⟨⟨h1, h2⟩, ih (k + 1) h3 (by omega)⟩

/-- Every write of a ring index keeps the canonical form. -/
theorem Memory.write_wf (m : Memory) (i b : Byte) (h : m.wf = true) : (m.write i.toNat b).wf = true :=
  Memory.risingFrom_write m 0 i.toNat b h (Nat.zero_le _) i.isLt

/-! ## LOG.APPEND's loop -/

@[simp] theorem LogBuffer.pushAll_nil (l : LogBuffer) : l.pushAll [] = l := rfl

@[simp] theorem LogBuffer.pushAll_cons (l : LogBuffer) (b : Byte) (bytes : List Byte) :
    l.pushAll (b :: bytes) = (l.push b).pushAll bytes := rfl

theorem LogBuffer.pushAll_startIx (l : LogBuffer) (bytes : List Byte) : (l.pushAll bytes).startIx = l.startIx := by
  induction bytes generalizing l with
  | nil => rfl
  | cons b bytes ih => rw [LogBuffer.pushAll_cons, ih]; rfl

theorem LogBuffer.pushAll_endIx (l : LogBuffer) (bytes : List Byte) :
    (l.pushAll bytes).endIx.toNat = (l.endIx.toNat + bytes.length) % 256 := by
  induction bytes generalizing l with
  | nil => simp [Nat.mod_eq_of_lt l.endIx.isLt]
  | cons b bytes ih =>
    rw [LogBuffer.pushAll_cons, ih]
    simp only [LogBuffer.push, nextIndex_toNat, List.length_cons]
    omega

/-- `level` counts every byte, exactly, as long as the sum fits its nine bits. -/
theorem LogBuffer.pushAll_level (l : LogBuffer) (bytes : List Byte) (h : l.level.toNat + bytes.length < 512) :
    (l.pushAll bytes).level.toNat = l.level.toNat + bytes.length := by
  induction bytes generalizing l with
  | nil => simp
  | cons b bytes ih =>
    simp only [List.length_cons] at h ⊢
    have hl : (l.push b).level.toNat = l.level.toNat + 1 := by
      simp [LogBuffer.push, BitVec.toNat_add]; omega
    rw [LogBuffer.pushAll_cons, ih _ (by omega), hl]
    omega

/-- Indices outside the stored range keep their bytes. -/
theorem LogBuffer.pushAll_read_other (l : LogBuffer) (bytes : List Byte) (a : Nat)
    (h : ∀ j < bytes.length, a ≠ (l.endIx.toNat + j) % 256) :
    (l.pushAll bytes).ring.read a = l.ring.read a := by
  induction bytes generalizing l with
  | nil => rfl
  | cons b bytes ih =>
    have h0 := h 0 (by simp)
    simp only [Nat.add_zero, Nat.mod_eq_of_lt l.endIx.isLt] at h0
    rw [LogBuffer.pushAll_cons, ih]
    · exact Memory.read_write_other _ _ _ _ h0
    · intro j hj
      have := h (j + 1) (by simpa using hj)
      simp only [LogBuffer.push, nextIndex_toNat]
      omega

/-- The stored bytes stand at `(end + j) mod C` in order (R65), as long as they are no more than the ring holds. -/
theorem LogBuffer.pushAll_read_stored (l : LogBuffer) (bytes : List Byte) (h : bytes.length ≤ 256) (j : Nat)
    (hj : j < bytes.length) : (l.pushAll bytes).ring.read ((l.endIx.toNat + j) % 256) = bytes[j]? := by
  induction bytes generalizing l j with
  | nil => simp at hj
  | cons b bytes ih =>
    simp only [List.length_cons] at h hj
    rw [LogBuffer.pushAll_cons]
    cases j with
    | zero =>
      rw [LogBuffer.pushAll_read_other]
      · simp only [LogBuffer.push, Nat.add_zero, Nat.mod_eq_of_lt l.endIx.isLt, Memory.read_write_same]
        rfl
      · intro j hj'
        simp only [LogBuffer.push, nextIndex_toNat]
        have := l.endIx.isLt
        omega
    | succ j =>
      have := ih (l.push b) (by omega) j (by omega)
      simp only [LogBuffer.push, nextIndex_toNat] at this
      simp only [List.getElem?_cons_succ]
      rw [← this]
      congr 1
      omega

theorem LogBuffer.pushAll_wf (l : LogBuffer) (bytes : List Byte) (h : l.ring.wf = true) :
    (l.pushAll bytes).ring.wf = true := by
  induction bytes generalizing l with
  | nil => exact h
  | cons b bytes ih => exact ih _ (Memory.write_wf _ _ _ h)

/-! ## LOG.DRAIN's loop -/

/-- All that the loop can do when it ends: `k` bytes read in order from `start`, `start` and `level` moved by `k`, the ring
and `end` untouched. -/
theorem LogBuffer.popMany_ok (k : Nat) (l l' : LogBuffer) (bytes : List Byte) (hk : k ≤ l.level.toNat)
    (h : l.popMany k = .ok (bytes, l')) :
    bytes.length = k ∧ (∀ j < k, l.ring.read ((l.startIx.toNat + j) % 256) = bytes[j]?) ∧
    l'.ring = l.ring ∧ l'.endIx = l.endIx ∧ l'.startIx.toNat = (l.startIx.toNat + k) % 256 ∧
    l'.level.toNat = l.level.toNat - k := by
  induction k generalizing l bytes with
  | zero =>
    simp only [LogBuffer.popMany, Except.ok.injEq, Prod.mk.injEq] at h
    obtain ⟨rfl, rfl⟩ := h
    simp [Nat.mod_eq_of_lt l.startIx.isLt]
  | succ k ih =>
    simp only [LogBuffer.popMany] at h
    split at h
    · cases h
    · rename_i b hb
      split at h
      · rename_i rest l'' hrest
        simp only [Except.ok.injEq, Prod.mk.injEq] at h
        obtain ⟨rfl, rfl⟩ := h
        have hl : (l.level - 1).toNat = l.level.toNat - 1 := by
          have h1 : (1#9).toNat ≤ l.level.toNat := by simp; omega
          rw [BitVec.toNat_sub_of_le (by simpa [BitVec.le_def] using h1)]
          simp
        obtain ⟨h1, h2, h3, h4, h5, h6⟩ := ih _ _ (by simp only [hl]; omega) hrest
        simp only [nextIndex_toNat, hl] at h2 h5 h6
        refine ⟨by simp [h1], ?_, h3, h4, by rw [h5]; omega, by rw [h6]; omega⟩
        intro j hj
        cases j with
        | zero => simpa [Nat.mod_eq_of_lt l.startIx.isLt] using hb
        | succ j =>
          rw [List.getElem?_cons_succ, ← h2 j (by omega)]
          congr 1
          omega
      · cases h

/-- The loop ends exactly when every position it reads holds a value; otherwise it names one that does not. -/
theorem LogBuffer.popMany_total (k : Nat) (l : LogBuffer) :
    ((∀ j < k, (l.ring.read ((l.startIx.toNat + j) % 256)).isSome = true) → ∃ p, l.popMany k = .ok p) ∧
    (∀ i, l.popMany k = .error i → ∃ j < k, i = (l.startIx.toNat + j) % 256 ∧ l.ring.read i = none) := by
  induction k generalizing l with
  | zero => simp [LogBuffer.popMany]
  | succ k ih =>
    have h0 := Nat.mod_eq_of_lt l.startIx.isLt
    have shift : ∀ j, ((nextIndex l.startIx).toNat + j) % 256 = (l.startIx.toNat + (j + 1)) % 256 := by
      intro j; rw [nextIndex_toNat]; omega
    obtain ⟨ih1, ih2⟩ := ih { l with startIx := nextIndex l.startIx, level := l.level - 1 }
    simp only [shift] at ih1 ih2
    constructor
    · intro h
      have hb := h 0 (by omega)
      simp only [Nat.add_zero, h0] at hb
      obtain ⟨b, hb⟩ := Option.isSome_iff_exists.mp hb
      obtain ⟨p, hp⟩ := ih1 fun j hj => h (j + 1) (by omega)
      exact ⟨(b :: p.1, p.2), by simp only [LogBuffer.popMany, hb, hp]⟩
    · intro i hi
      simp only [LogBuffer.popMany] at hi
      split at hi
      · rename_i hnone
        simp only [Except.error.injEq] at hi
        subst hi
        exact ⟨0, by omega, by simp [h0], hnone⟩
      · split at hi
        · cases hi
        · rename_i i' hi'
          simp only [Except.error.injEq] at hi
          subst hi
          obtain ⟨j, hj, hij, hr⟩ := ih2 _ hi'
          exact ⟨j + 1, by omega, hij, hr⟩

end Sys2Proof.Machine
end

