-- ==== Sys2Proof/Laws/State.lean ====
section
/-! SUPPORT. What each update of State leaves in each field. -/

namespace Sys2Proof.Machine.State

@[simp] theorem withDisplay_display (s : State) (d : DisplayState) : (s.withDisplay d).display = d := rfl
@[simp] theorem withDisplay_pins (s : State) (d : DisplayState) : (s.withDisplay d).pins = s.pins := rfl
@[simp] theorem withDisplay_log (s : State) (d : DisplayState) : (s.withDisplay d).log = s.log := rfl
@[simp] theorem withDisplay_enc (s : State) (d : DisplayState) : (s.withDisplay d).enc = s.enc := rfl
@[simp] theorem withDisplay_timer (s : State) (d : DisplayState) : (s.withDisplay d).timer = s.timer := rfl
@[simp] theorem withDisplay_seq (s : State) (d : DisplayState) : (s.withDisplay d).seq = s.seq := rfl
@[simp] theorem withDisplay_env (s : State) (d : DisplayState) : (s.withDisplay d).env = s.env := rfl

@[simp] theorem withPins_display (s : State) (p : Pins) : (s.withPins p).display = s.display := rfl
@[simp] theorem withPins_pins (s : State) (p : Pins) : (s.withPins p).pins = p := rfl
@[simp] theorem withPins_log (s : State) (p : Pins) : (s.withPins p).log = s.log := rfl
@[simp] theorem withPins_enc (s : State) (p : Pins) : (s.withPins p).enc = s.enc := rfl
@[simp] theorem withPins_timer (s : State) (p : Pins) : (s.withPins p).timer = s.timer := rfl
@[simp] theorem withPins_seq (s : State) (p : Pins) : (s.withPins p).seq = s.seq := rfl
@[simp] theorem withPins_env (s : State) (p : Pins) : (s.withPins p).env = s.env := rfl

@[simp] theorem withLog_display (s : State) (l : LogBuffer) : (s.withLog l).display = s.display := rfl
@[simp] theorem withLog_pins (s : State) (l : LogBuffer) : (s.withLog l).pins = s.pins := rfl
@[simp] theorem withLog_log (s : State) (l : LogBuffer) : (s.withLog l).log = l := rfl
@[simp] theorem withLog_enc (s : State) (l : LogBuffer) : (s.withLog l).enc = s.enc := rfl
@[simp] theorem withLog_timer (s : State) (l : LogBuffer) : (s.withLog l).timer = s.timer := rfl
@[simp] theorem withLog_seq (s : State) (l : LogBuffer) : (s.withLog l).seq = s.seq := rfl
@[simp] theorem withLog_env (s : State) (l : LogBuffer) : (s.withLog l).env = s.env := rfl

@[simp] theorem withEnc_display (s : State) (e : EncoderState) : (s.withEnc e).display = s.display := rfl
@[simp] theorem withEnc_pins (s : State) (e : EncoderState) : (s.withEnc e).pins = s.pins := rfl
@[simp] theorem withEnc_log (s : State) (e : EncoderState) : (s.withEnc e).log = s.log := rfl
@[simp] theorem withEnc_enc (s : State) (e : EncoderState) : (s.withEnc e).enc = e := rfl
@[simp] theorem withEnc_timer (s : State) (e : EncoderState) : (s.withEnc e).timer = s.timer := rfl
@[simp] theorem withEnc_seq (s : State) (e : EncoderState) : (s.withEnc e).seq = s.seq := rfl
@[simp] theorem withEnc_env (s : State) (e : EncoderState) : (s.withEnc e).env = s.env := rfl

@[simp] theorem withTimer_display (s : State) (t : Timer) : (s.withTimer t).display = s.display := rfl
@[simp] theorem withTimer_pins (s : State) (t : Timer) : (s.withTimer t).pins = s.pins := rfl
@[simp] theorem withTimer_log (s : State) (t : Timer) : (s.withTimer t).log = s.log := rfl
@[simp] theorem withTimer_enc (s : State) (t : Timer) : (s.withTimer t).enc = s.enc := rfl
@[simp] theorem withTimer_timer (s : State) (t : Timer) : (s.withTimer t).timer = t := rfl
@[simp] theorem withTimer_seq (s : State) (t : Timer) : (s.withTimer t).seq = s.seq := rfl
@[simp] theorem withTimer_env (s : State) (t : Timer) : (s.withTimer t).env = s.env := rfl

@[simp] theorem withSeq_display (s : State) (q : Sequencer) : (s.withSeq q).display = s.display := rfl
@[simp] theorem withSeq_pins (s : State) (q : Sequencer) : (s.withSeq q).pins = s.pins := rfl
@[simp] theorem withSeq_log (s : State) (q : Sequencer) : (s.withSeq q).log = s.log := rfl
@[simp] theorem withSeq_enc (s : State) (q : Sequencer) : (s.withSeq q).enc = s.enc := rfl
@[simp] theorem withSeq_timer (s : State) (q : Sequencer) : (s.withSeq q).timer = s.timer := rfl
@[simp] theorem withSeq_seq (s : State) (q : Sequencer) : (s.withSeq q).seq = q := rfl
@[simp] theorem withSeq_env (s : State) (q : Sequencer) : (s.withSeq q).env = s.env := rfl

@[simp] theorem withEnv_display (s : State) (o : Outside) : (s.withEnv o).display = s.display := rfl
@[simp] theorem withEnv_pins (s : State) (o : Outside) : (s.withEnv o).pins = s.pins := rfl
@[simp] theorem withEnv_log (s : State) (o : Outside) : (s.withEnv o).log = s.log := rfl
@[simp] theorem withEnv_enc (s : State) (o : Outside) : (s.withEnv o).enc = s.enc := rfl
@[simp] theorem withEnv_timer (s : State) (o : Outside) : (s.withEnv o).timer = s.timer := rfl
@[simp] theorem withEnv_seq (s : State) (o : Outside) : (s.withEnv o).seq = s.seq := rfl
@[simp] theorem withEnv_env (s : State) (o : Outside) : (s.withEnv o).env = o := rfl

/-- Two states are equal when their seven parts are. -/
theorem ext_parts (s t : State) (h1 : s.display = t.display) (h2 : s.pins = t.pins) (h3 : s.log = t.log)
    (h4 : s.enc = t.enc) (h5 : s.timer = t.timer) (h6 : s.seq = t.seq) (h7 : s.env = t.env) : s = t := by
  cases s; cases t; simp_all

end Sys2Proof.Machine.State
end

