-- ==== Sys2Proof/Laws/Ops.lean ====
section
/-! SUPPORT. What each shared operation does to each part of the state, said once. -/

namespace Sys2Proof.Machine

/-! ## Pins -/

@[simp] theorem drivePins_display (p : Pins) (s : State) : (drivePins p s).display = s.display := rfl
@[simp] theorem drivePins_pins (p : Pins) (s : State) : (drivePins p s).pins = p := rfl
@[simp] theorem drivePins_log (p : Pins) (s : State) : (drivePins p s).log = s.log := rfl
@[simp] theorem drivePins_enc (p : Pins) (s : State) : (drivePins p s).enc = s.enc := rfl
@[simp] theorem drivePins_timer (p : Pins) (s : State) : (drivePins p s).timer = s.timer := rfl
@[simp] theorem drivePins_seq (p : Pins) (s : State) : (drivePins p s).seq = s.seq := rfl
@[simp] theorem drivePins_env (p : Pins) (s : State) :
    (drivePins p s).env = { s.env with pinTrace := s.env.pinTrace ++ [p] } := rfl

theorem Pins.dark_exclusive (p : Pins) : p.dark.exclusive = true := by simp [Pins.dark, Pins.exclusive]

/-- Lighting one digit of dark pins lights no other. -/
theorem Pins.light_exclusive (p : Pins) (d : Digit) (h1 : p.enOnes = .inactive) (h2 : p.enTens = .inactive) :
    (p.light d).exclusive = true := by
  cases d <;> simp [Pins.light, Pins.exclusive, h1, h2]

/-! ## The lines -/

@[simp] theorem linesTaken_display (s : State) : (linesTaken s).display = s.display := by
  unfold linesTaken; split <;> rfl
@[simp] theorem linesTaken_pins (s : State) : (linesTaken s).pins = s.pins := by unfold linesTaken; split <;> rfl
@[simp] theorem linesTaken_log (s : State) : (linesTaken s).log = s.log := by unfold linesTaken; split <;> rfl
@[simp] theorem linesTaken_enc (s : State) : (linesTaken s).enc = s.enc := by unfold linesTaken; split <;> rfl
@[simp] theorem linesTaken_timer (s : State) : (linesTaken s).timer = s.timer := by unfold linesTaken; split <;> rfl
@[simp] theorem linesTaken_seq (s : State) : (linesTaken s).seq = s.seq := by unfold linesTaken; split <;> rfl
@[simp] theorem linesTaken_pinTrace (s : State) : (linesTaken s).env.pinTrace = s.env.pinTrace := by
  unfold linesTaken; split <;> rfl
@[simp] theorem linesTaken_cmd (s : State) : (linesTaken s).env.cmd = s.env.cmd := by unfold linesTaken; split <;> rfl
@[simp] theorem linesTaken_taken (s : State) : (linesTaken s).env.taken = s.env.taken := by
  unfold linesTaken; split <;> rfl
@[simp] theorem linesTaken_edges (s : State) : (linesTaken s).env.edges = s.env.edges := by
  unfold linesTaken; split <;> rfl

/-- A `lines()` call reads and changes nothing but the outside. -/
theorem linesTaken_env_congr (s t : State) (h : t.env = s.env) : (linesTaken t).env = (linesTaken s).env := by
  unfold linesTaken; rw [h]; split <;> simp_all

/-! ## Responses -/

@[simp] theorem emit_display (b : List Byte) (s : State) : (emit b s).display = s.display := rfl
@[simp] theorem emit_pins (b : List Byte) (s : State) : (emit b s).pins = s.pins := rfl
@[simp] theorem emit_log (b : List Byte) (s : State) : (emit b s).log = s.log := rfl
@[simp] theorem emit_enc (b : List Byte) (s : State) : (emit b s).enc = s.enc := rfl
@[simp] theorem emit_timer (b : List Byte) (s : State) : (emit b s).timer = s.timer := rfl
@[simp] theorem emit_seq (b : List Byte) (s : State) : (emit b s).seq = { s.seq with rsp := s.seq.rsp ++ b } := rfl
@[simp] theorem emit_env (b : List Byte) (s : State) : (emit b s).env = s.env := rfl

@[simp] theorem padBytes_length (n : Nat) (s : State) : (padBytes n s).length = n := by simp [padBytes]

@[simp] theorem emitPad_display (n : Nat) (s : State) : (emitPad n s).display = s.display := rfl
@[simp] theorem emitPad_pins (n : Nat) (s : State) : (emitPad n s).pins = s.pins := rfl
@[simp] theorem emitPad_log (n : Nat) (s : State) : (emitPad n s).log = s.log := rfl
@[simp] theorem emitPad_enc (n : Nat) (s : State) : (emitPad n s).enc = s.enc := rfl
@[simp] theorem emitPad_timer (n : Nat) (s : State) : (emitPad n s).timer = s.timer := rfl
@[simp] theorem emitPad_seq (n : Nat) (s : State) :
    (emitPad n s).seq = { s.seq with rsp := s.seq.rsp ++ padBytes n s } := rfl
@[simp] theorem emitPad_env (n : Nat) (s : State) :
    (emitPad n s).env = { s.env with draws := s.env.draws + n } := rfl

/-! ## ENC.SAMPLE and its settle wait -/

@[simp] theorem answerCount_enc (s : State) : (answerCount s).enc = s.enc := rfl
@[simp] theorem answerCount_env (s : State) : (answerCount s).env = s.env := rfl
@[simp] theorem answerCount_seq (s : State) :
    (answerCount s).seq = { s.seq with rsp := s.seq.rsp ++ [s.enc.count] } := rfl
@[simp] theorem beginWait_enc (s : State) : (beginWait s).enc = { s.enc with gateClosed := true } := rfl
@[simp] theorem beginWait_env (s : State) : (beginWait s).env = s.env := rfl
@[simp] theorem beginWait_seq (s : State) :
    (beginWait s).seq = { s.seq with settle := .counting Config.settleCycles } := rfl

@[simp] theorem endWait_display (s : State) : (endWait s).display = s.display := by simp [endWait, answerCount]
@[simp] theorem endWait_pins (s : State) : (endWait s).pins = s.pins := by simp [endWait, answerCount]
@[simp] theorem endWait_log (s : State) : (endWait s).log = s.log := by simp [endWait, answerCount]
@[simp] theorem endWait_timer (s : State) : (endWait s).timer = s.timer := by simp [endWait, answerCount]
@[simp] theorem endWait_enc (s : State) :
    (endWait s).enc = { s.enc with count := countAfter s.enc.count s.enc.max (linesNow s) } := rfl
@[simp] theorem endWait_env (s : State) : (endWait s).env = (linesTaken s).env := rfl
@[simp] theorem endWait_seq (s : State) :
    (endWait s).seq =
      { s.seq with
        settle := .idle, rsp := s.seq.rsp ++ [countAfter s.enc.count s.enc.max (linesNow s)] } := by
  simp [endWait]

/-- All that ENC.SAMPLE can do: change the gate and answer the count, or close the gate and go into the settle wait. -/
theorem execEncSample_cases (s : State) :
    (∃ gate, execEncSample s = .next (answerCount ((linesTaken s).withEnc { s.enc with gateClosed := gate })) ∧
      (s.enc.gateClosed = true ∧ gate = !(linesNow s).bothHigh ∨
       s.enc.gateClosed = false ∧ gate = false ∧ (linesNow s).anyLow = false)) ∨
    (s.enc.gateClosed = false ∧ (linesNow s).anyLow = true ∧ execEncSample s = .next (beginWait (linesTaken s))) := by
  have self : ∀ t : State, ∀ g, t.enc.gateClosed = g → t.withEnc { t.enc with gateClosed := g } = t := by
    rintro t g rfl; rfl
  have henc : (linesTaken s).enc = s.enc := linesTaken_enc s
  unfold execEncSample
  cases hg : s.enc.gateClosed <;> simp only [Bool.false_eq_true, if_true, if_false]
  · cases hl : (linesNow s).anyLow <;> simp only [Bool.false_eq_true, if_true, if_false]
    · refine .inl ⟨false, ?_, .inr (by simp)⟩
      rw [← henc, self _ _ (by rw [henc, hg])]
    · exact .inr (by simp)
  · cases hl : (linesNow s).bothHigh <;> simp only [Bool.false_eq_true, if_true, if_false]
    · refine .inl ⟨true, ?_, .inl (by simp)⟩
      rw [← henc, self _ _ (by rw [henc, hg])]
    · exact .inl ⟨false, by rw [henc], .inl (by simp)⟩

/-- The atomic step is `exec` for every operation but ENC.SAMPLE. -/
theorem perform_eq_exec (i : Instr) (s : State) (h : i ≠ .encSample) : perform i s = exec i s := by
  unfold perform; split <;> simp_all

/-! ## The Tick's phases -/

/-- Phase P1 with entry. -/
theorem enterTick_eq (s : State) :
    enterTick s = drivePins s.pins.dark (s.withTimer { s.timer with tickPending := false }) := rfl

@[simp] theorem tickP2_display (s : State) : (tickP2 s).display = s.display := rfl
@[simp] theorem tickP3_pins (s : State) : (tickP3 s).pins = s.pins.light s.display.activeDigit := rfl
@[simp] theorem Digit.flip_flip (d : Digit) : d.flip.flip = d := by cases d <;> rfl

/-! ## The timer -/

@[simp] theorem Timer.edge_timerRun (top : Byte) (t : Timer) : (t.edge top).timerRun = t.timerRun := by
  unfold Timer.edge; dsimp only; split
  · split
    · split <;> rfl
    · rfl
  · rfl

/-- A stopped timer does not change (R192). -/
theorem Timer.edge_stopped (top : Byte) (t : Timer) (h : t.timerRun = false) : t.edge top = t := by
  simp [Timer.edge, h]

/-- The counter stays in its range, and a stopped timer requests nothing. -/
theorem Timer.edge_sound (t : Timer) (h : t.sound) : (t.edge Config.timerTop).sound := by
  obtain ⟨h1, h2⟩ := h
  have htop : Config.timerTop.toNat = 250 := rfl
  unfold Timer.edge
  dsimp only
  split
  · rename_i hrun
    split
    · split
      · exact ⟨by simp, fun _ => hrun⟩
      · rename_i hne
        have : t.tcnt.toNat ≠ 250 := fun h => hne (BitVec.eq_of_toNat_eq (by rw [htop, h]))
        have one : (1 : Byte).toNat = 1 := rfl
        exact ⟨by simp only [BitVec.toNat_add, one]; omega, h2⟩
    · exact ⟨h1, h2⟩
  · exact ⟨h1, h2⟩

/-! ## The operations of the log buffer -/

/-- A LOG.APPEND that is accepted is the loop over the message with its CR, LF. -/
theorem execLogAppend_accepted (text : List Byte) (s : State) (h : s.log.level.toNat + text.length + 2 ≤ 256) :
    execLogAppend text s = .next (s.withLog (s.log.pushAll (stored text))) := by
  have : dropped s.log.level text = false :=
    decide_eq_false (by simp only [Config.ringCapacity]; omega)
  simp [execLogAppend, this]

/-- A LOG.APPEND that does not fit is no operation at all. -/
theorem execLogAppend_dropped (text : List Byte) (s : State) (h : 256 < s.log.level.toNat + text.length + 2) :
    execLogAppend text s = .next s := by
  have : dropped s.log.level text = true :=
    decide_eq_true (by simp only [Config.ringCapacity]; omega)
  simp [execLogAppend, this]

/-- All that a Drain can do. -/
theorem drain_cases (N bias : Nat) (s : State) :
    (∃ payload log, s.log.popMany (payloadCount N s.log.level) = .ok (payload, log) ∧
      drain N bias s = .next (emitPad (N - 1 - payloadCount N s.log.level)
        (emit (prefixByte bias (payloadCount N s.log.level) :: payload) (s.withLog log)))) ∨
    (∃ a, s.log.popMany (payloadCount N s.log.level) = .error a ∧ drain N bias s = .fault (.ringUnwritten a)) := by
  unfold drain
  dsimp only
  split
  · rename_i payload log h
    exact .inl ⟨payload, log, h, rfl⟩
  · rename_i a h
    exact .inr ⟨a, h, rfl⟩

/-- The valid positions of a buffer that holds some bytes all have a value. -/
theorem LogBuffer.holds_isSome (l : LogBuffer) (bytes : List Byte) (h : l.holds bytes) (j : Nat)
    (hj : j < l.level.toNat) : (l.ring.read ((l.startIx.toNat + j) % 256)).isSome = true := by
  obtain ⟨h1, _, h3⟩ := h
  have := h3 j (by omega)
  simp only [Config.ringCapacity] at this
  rw [this, List.getElem?_eq_getElem (by omega)]
  rfl

end Sys2Proof.Machine
end

