-- ==== Sys2Proof/Laws/Clock.lean ====
section
/-! SUPPORT. What one clock edge does to each part of the state, said once, and what a step can answer. -/

namespace Sys2Proof.Machine

/-! ## The parts of an edge -/

@[simp] theorem edgeTaken_display (s : State) : (edgeTaken s).display = s.display := by unfold edgeTaken; split <;> rfl
@[simp] theorem edgeTaken_pins (s : State) : (edgeTaken s).pins = s.pins := by unfold edgeTaken; split <;> rfl
@[simp] theorem edgeTaken_log (s : State) : (edgeTaken s).log = s.log := by unfold edgeTaken; split <;> rfl
@[simp] theorem edgeTaken_enc (s : State) : (edgeTaken s).enc = s.enc := by unfold edgeTaken; split <;> rfl
@[simp] theorem edgeTaken_timer (s : State) : (edgeTaken s).timer = s.timer := by unfold edgeTaken; split <;> rfl
@[simp] theorem edgeTaken_seq (s : State) : (edgeTaken s).seq = s.seq := by unfold edgeTaken; split <;> rfl
@[simp] theorem edgeTaken_cmd (s : State) : (edgeTaken s).env.cmd = s.env.cmd := by unfold edgeTaken; split <;> rfl
@[simp] theorem edgeTaken_lines (s : State) : (edgeTaken s).env.lines = s.env.lines := by
  unfold edgeTaken; split <;> rfl
@[simp] theorem edgeTaken_pinTrace (s : State) : (edgeTaken s).env.pinTrace = s.env.pinTrace := by
  unfold edgeTaken; split <;> rfl
@[simp] theorem edgeTaken_taken (s : State) : (edgeTaken s).env.taken = s.env.taken := by
  unfold edgeTaken; split <;> rfl
@[simp] theorem edgeTaken_edges (s : State) : (edgeTaken s).env.edges = s.env.edges.tail := by
  unfold edgeTaken; split <;> simp_all

/-- The inputs of a state that differs only in other parts are the same. -/
theorem edgeIn_congr (s t : State) (h1 : t.env.edges = s.env.edges) (h2 : t.env.draws = s.env.draws) :
    edgeIn t = edgeIn s := by
  unfold edgeIn; rw [h1, h2]

@[simp] theorem transferResponse_display (s : State) : (transferResponse s).display = s.display := by
  unfold transferResponse; split <;> rfl
@[simp] theorem transferResponse_pins (s : State) : (transferResponse s).pins = s.pins := by
  unfold transferResponse; split <;> rfl
@[simp] theorem transferResponse_log (s : State) : (transferResponse s).log = s.log := by
  unfold transferResponse; split <;> rfl
@[simp] theorem transferResponse_enc (s : State) : (transferResponse s).enc = s.enc := by
  unfold transferResponse; split <;> rfl
@[simp] theorem transferResponse_timer (s : State) : (transferResponse s).timer = s.timer := by
  unfold transferResponse; split <;> rfl
@[simp] theorem transferResponse_seq (s : State) :
    (transferResponse s).seq = { s.seq with rsp := s.seq.rsp.tail } := by
  unfold transferResponse; split
  · simp_all
  · rename_i h; rw [h, List.tail_nil, ← h]
@[simp] theorem transferResponse_env (s : State) :
    (transferResponse s).env = { s.env with taken := s.env.taken ++ s.seq.rsp.take 1 } := by
  unfold transferResponse; split <;> simp_all

@[simp] theorem settleEdge_display (s : State) : (settleEdge s).display = s.display := by
  unfold settleEdge; split <;> simp
@[simp] theorem settleEdge_pins (s : State) : (settleEdge s).pins = s.pins := by unfold settleEdge; split <;> simp
@[simp] theorem settleEdge_log (s : State) : (settleEdge s).log = s.log := by unfold settleEdge; split <;> simp
@[simp] theorem settleEdge_timer (s : State) : (settleEdge s).timer = s.timer := by unfold settleEdge; split <;> simp
@[simp] theorem settleEdge_cmd (s : State) : (settleEdge s).env.cmd = s.env.cmd := by
  unfold settleEdge; split <;> simp
@[simp] theorem settleEdge_taken (s : State) : (settleEdge s).env.taken = s.env.taken := by
  unfold settleEdge; split <;> simp
@[simp] theorem settleEdge_edges (s : State) : (settleEdge s).env.edges = s.env.edges := by
  unfold settleEdge; split <;> simp
@[simp] theorem settleEdge_pinTrace (s : State) : (settleEdge s).env.pinTrace = s.env.pinTrace := by
  unfold settleEdge; split <;> simp

/-- An edge that is not the end of a settle wait leaves the encoder and the lines alone. -/
theorem settleEdge_of_ne (s : State) (h : s.seq.settle ≠ .counting 0) :
    settleEdge s = s.withSeq { s.seq with settle := s.seq.settle.next } := if_neg h

/-- The end of a settle wait. -/
theorem settleEdge_of_eq (s : State) (h : s.seq.settle = .counting 0) : settleEdge s = endWait s := if_pos h

@[simp] theorem transferCommand_display (s : State) : (transferCommand s).display = s.display := by
  unfold transferCommand; split <;> rfl
@[simp] theorem transferCommand_pins (s : State) : (transferCommand s).pins = s.pins := by
  unfold transferCommand; split <;> rfl
@[simp] theorem transferCommand_log (s : State) : (transferCommand s).log = s.log := by
  unfold transferCommand; split <;> rfl
@[simp] theorem transferCommand_enc (s : State) : (transferCommand s).enc = s.enc := by
  unfold transferCommand; split <;> rfl
@[simp] theorem transferCommand_timer (s : State) : (transferCommand s).timer = s.timer := by
  unfold transferCommand; split <;> rfl
@[simp] theorem transferCommand_seq (s : State) :
    (transferCommand s).seq = { s.seq with frame := s.seq.frame ++ s.env.cmd.take 1 } := by
  unfold transferCommand; split <;> simp_all
@[simp] theorem transferCommand_env (s : State) :
    (transferCommand s).env = { s.env with cmd := s.env.cmd.drop 1 } := by
  unfold transferCommand; split
  · simp_all
  · rename_i h; rw [h, List.drop_nil, ← h]

/-- What a Tick phase does, part by part: the request is cleared at P1, `activeDigit` flips at P3, the pins and the pin
trace take the phase's value. -/
@[simp] theorem phaseStep_log (p : TickPhase) (s : State) : (phaseStep p s).log = s.log := by cases p <;> rfl
@[simp] theorem phaseStep_enc (p : TickPhase) (s : State) : (phaseStep p s).enc = s.enc := by cases p <;> rfl
@[simp] theorem phaseStep_seq (p : TickPhase) (s : State) :
    (phaseStep p s).seq = { s.seq with tickPhase := p } := by cases p <;> rfl
@[simp] theorem phaseStep_timer (p : TickPhase) (s : State) :
    (phaseStep p s).timer = if p = .p1 then { s.timer with tickPending := false } else s.timer := by cases p <;> rfl
@[simp] theorem phaseStep_display (p : TickPhase) (s : State) :
    (phaseStep p s).display =
      if p = .p3 then { s.display with activeDigit := s.display.activeDigit.flip } else s.display := by cases p <;> rfl

/-- The pins a Tick phase leaves. -/
def phasePins (p : TickPhase) (s : State) : Pins :=
  match p with
  | .idle => s.pins
  | .p1 => s.pins.dark
  | .p2 => { s.pins with seg := Config.seg s.display.shown }
  | .p3 => s.pins.light s.display.activeDigit

@[simp] theorem phaseStep_pins (p : TickPhase) (s : State) : (phaseStep p s).pins = phasePins p s := by cases p <;> rfl
@[simp] theorem phaseStep_env (p : TickPhase) (s : State) :
    (phaseStep p s).env =
      { s.env with pinTrace := s.env.pinTrace ++ if p = .idle then [] else [phasePins p s] } := by
  cases p <;> simp [phaseStep, phasePins, enterTick, tickP1, tickP2, tickP3]

@[simp] theorem consumeFrame_display (o : Option (Instr × List Byte)) (s : State) :
    (consumeFrame o s).display = s.display := by cases o <;> rfl
@[simp] theorem consumeFrame_pins (o : Option (Instr × List Byte)) (s : State) :
    (consumeFrame o s).pins = s.pins := by cases o <;> rfl
@[simp] theorem consumeFrame_log (o : Option (Instr × List Byte)) (s : State) :
    (consumeFrame o s).log = s.log := by cases o <;> rfl
@[simp] theorem consumeFrame_enc (o : Option (Instr × List Byte)) (s : State) :
    (consumeFrame o s).enc = s.enc := by cases o <;> rfl
@[simp] theorem consumeFrame_timer (o : Option (Instr × List Byte)) (s : State) :
    (consumeFrame o s).timer = s.timer := by cases o <;> rfl
@[simp] theorem consumeFrame_env (o : Option (Instr × List Byte)) (s : State) :
    (consumeFrame o s).env = s.env := by cases o <;> rfl
@[simp] theorem consumeFrame_seq (o : Option (Instr × List Byte)) (s : State) :
    (consumeFrame o s).seq =
      { s.seq with frame := match o with | some (_, rest) => rest | none => s.seq.frame } := by cases o <;> rfl

/-! ## The whole edge -/

/-- Whether a response byte moves at this edge. -/
def responseMoves (s : State) : Bool := rspValid s && (edgeIn s).rspReady

/-- Whether a command byte moves at this edge, if FG has one. -/
def commandMoves (s : State) : Bool := cmdReady s && (edgeIn s).cmdValid

/-- What stays in the frame decoder when the operation that takes effect at this edge has left it. -/
def frameLeft (s : State) : List Byte :=
  match pendingOp s with
  | some (_, rest) => rest
  | none => s.seq.frame

theorem frameLeft_some (s : State) (i : Instr) (rest : List Byte) (h : pendingOp s = some (i, rest)) :
    frameLeft s = rest := by simp [frameLeft, h]

theorem frameLeft_none (s : State) (h : pendingOp s = none) : frameLeft s = s.seq.frame := by simp [frameLeft, h]

/-- What the lines read at this edge, should a settle wait end at it. -/
def secondReading (s : State) : Lines := linesNow (edgeTaken s)

/-- The count after this edge's settle counter, before the operation that takes effect. -/
def settledCount (s : State) : Byte :=
  if s.seq.settle = .counting 0 then countAfter s.enc.count s.enc.max (secondReading s) else s.enc.count

/-- The lines of a state that differs in neither the queue of answers nor the counter read the same. -/
theorem linesNow_congr (s t : State) (h1 : t.env.lines = s.env.lines) (h2 : t.env.draws = s.env.draws) :
    linesNow t = linesNow s := by
  unfold linesNow; rw [h1, h2]

@[simp] theorem clockEdge_log (s : State) : (clockEdge s).log = s.log := by
  simp only [clockEdge]; split <;> split <;> simp [timerEdge]

theorem clockEdge_enc (s : State) : (clockEdge s).enc = { s.enc with count := settledCount s } := by
  simp only [clockEdge, settledCount, secondReading]
  by_cases h : s.seq.settle = .counting 0
  · rw [if_pos h]
    split <;> split <;>
      (simp only [transferCommand_enc, consumeFrame_enc, phaseStep_enc]
       rw [settleEdge_of_eq _ (by simp [timerEdge, h])]
       simp only [endWait_enc]
       rw [linesNow_congr (edgeTaken s) _ (by simp [timerEdge]) (by simp [timerEdge])]
       simp [timerEdge])
  · rw [if_neg h]
    split <;> split <;>
      (simp only [transferCommand_enc, consumeFrame_enc, phaseStep_enc]
       rw [settleEdge_of_ne _ (by simp [timerEdge, h])]
       simp [timerEdge])

/-- But at the end of a settle wait the encoder stays. -/
theorem clockEdge_enc_of_ne (s : State) (h : s.seq.settle ≠ .counting 0) : (clockEdge s).enc = s.enc := by
  rw [clockEdge_enc, settledCount, if_neg h]

theorem clockEdge_timer (s : State) :
    (clockEdge s).timer =
      if phaseAt s = .p1 then { s.timer.edge Config.timerTop with tickPending := false }
      else s.timer.edge Config.timerTop := by
  simp only [clockEdge]; split <;> split <;> simp [timerEdge]

theorem clockEdge_display (s : State) :
    (clockEdge s).display =
      if phaseAt s = .p3 then { s.display with activeDigit := s.display.activeDigit.flip } else s.display := by
  simp only [clockEdge]; split <;> split <;> simp [timerEdge]

theorem clockEdge_pins (s : State) : (clockEdge s).pins = phasePins (phaseAt s) s := by
  simp only [clockEdge]; split <;> split <;>
    simp [timerEdge] <;> cases phaseAt s <;> simp [phasePins]

/-- The bytes an ending settle wait gives the response shifter. -/
def settleEmits (s : State) : List Byte := if s.seq.settle = .counting 0 then [settledCount s] else []

theorem clockEdge_seq (s : State) :
    (clockEdge s).seq =
      { frame := frameLeft s ++ (if commandMoves s then s.env.cmd.take 1 else []),
        tickPhase := phaseAt s,
        settle := s.seq.settle.next,
        rsp := (if responseMoves s then s.seq.rsp.tail else s.seq.rsp) ++ settleEmits s } := by
  simp only [clockEdge, settleEmits, settledCount, secondReading]
  by_cases h : s.seq.settle = .counting 0
  · split <;> split <;>
      (simp only [transferCommand_seq, consumeFrame_seq, phaseStep_seq, consumeFrame_env, phaseStep_env, settleEdge_cmd]
       rw [settleEdge_of_eq _ (by simp [timerEdge, h])]
       simp only [endWait_seq]
       rw [linesNow_congr (edgeTaken s) _ (by simp [timerEdge]) (by simp [timerEdge])]
       simp_all [timerEdge, responseMoves, commandMoves, frameLeft, SettleCounter.next])
  · split <;> split <;>
      (simp only [transferCommand_seq, consumeFrame_seq, phaseStep_seq, consumeFrame_env, phaseStep_env, settleEdge_cmd]
       rw [settleEdge_of_ne _ (by simp [timerEdge, h])]
       simp_all [timerEdge, responseMoves, commandMoves, frameLeft])

theorem clockEdge_cmd (s : State) :
    (clockEdge s).env.cmd = if commandMoves s then s.env.cmd.drop 1 else s.env.cmd := by
  simp only [clockEdge]; split <;> split <;> simp_all [timerEdge, commandMoves]

theorem clockEdge_taken (s : State) :
    (clockEdge s).env.taken = s.env.taken ++ if responseMoves s then s.seq.rsp.take 1 else [] := by
  simp only [clockEdge]; split <;> split <;> simp_all [timerEdge, responseMoves]

@[simp] theorem clockEdge_edges (s : State) : (clockEdge s).env.edges = s.env.edges.tail := by
  simp only [clockEdge]; split <;> split <;> simp [timerEdge]

theorem clockEdge_pinTrace (s : State) :
    (clockEdge s).env.pinTrace =
      s.env.pinTrace ++ if phaseAt s = .idle then [] else [phasePins (phaseAt s) s] := by
  simp only [clockEdge]; split <;> split <;>
    simp [timerEdge] <;> cases phaseAt s <;> simp [phasePins]

/-- But at the end of a settle wait no answer of the lines is used. -/
theorem clockEdge_lines_of_ne (s : State) (h : s.seq.settle ≠ .counting 0) :
    (clockEdge s).env.lines = s.env.lines := by
  simp only [clockEdge]
  split <;> split <;>
    (simp only [transferCommand_env, consumeFrame_env, phaseStep_env]
     rw [settleEdge_of_ne _ (by simp [timerEdge, h])]
     simp [timerEdge])

/-- At the end of a settle wait one answer is used. -/
theorem clockEdge_lines_of_eq (s : State) (h : s.seq.settle = .counting 0) :
    (clockEdge s).env.lines = s.env.lines.tail := by
  have tail : ∀ t : State, (linesTaken t).env.lines = t.env.lines.tail := by
    intro t; unfold linesTaken; split <;> simp_all
  simp only [clockEdge]
  split <;> split <;>
    (simp only [transferCommand_env, consumeFrame_env, phaseStep_env]
     rw [settleEdge_of_eq _ (by simp [timerEdge, h])]
     simp [timerEdge, tail])

/-! ## Which phase comes -/

/-- A Tick in progress goes on to its next phase whatever else is pending. -/
theorem phaseAt_of_p1 (s : State) (h : s.seq.tickPhase = .p1) : phaseAt s = .p2 := by simp [phaseAt, h]

@[inherit_doc phaseAt_of_p1]
theorem phaseAt_of_p2 (s : State) (h : s.seq.tickPhase = .p2) : phaseAt s = .p3 := by simp [phaseAt, h]

/-- P2 comes only after P1. -/
theorem tickPhase_of_p2 (s : State) (h : phaseAt s = .p2) : s.seq.tickPhase = .p1 := by
  unfold phaseAt at h; split at h <;> (try split at h) <;> simp_all

/-- P3 comes only after P2. -/
theorem tickPhase_of_p3 (s : State) (h : phaseAt s = .p3) : s.seq.tickPhase = .p2 := by
  unfold phaseAt at h; split at h <;> (try split at h) <;> simp_all

/-! ## What a step can answer -/

/-- FG is free exactly when nothing holds it off. -/
theorem fgFree_iff (s : State) : fgFree s = true ↔ phaseAt s = .idle ∧ s.seq.settle = .idle ∧ s.seq.rsp = [] := by
  simp [fgFree, and_assoc]

/-- An operation takes effect only when FG is free and its whole frame is there. -/
theorem pendingOp_eq_some (s : State) (i : Instr) (rest : List Byte) :
    pendingOp s = some (i, rest) ↔ fgFree s = true ∧ decode s.seq.frame = .ok (i, rest) := by
  unfold pendingOp
  split
  · rename_i h
    cases hd : decode s.seq.frame <;> simp [h]
  · rename_i h
    simp [h]

/-- The three kinds of step: a hardware reset, an edge with an operation, an edge without one. -/
theorem step_cases (s : State) :
    ((edgeIn s).rst = true ∧ step s = .next (hardReset s)) ∨
    ((edgeIn s).rst = false ∧ ∃ i rest, pendingOp s = some (i, rest) ∧ step s = exec i (clockEdge s)) ∨
    ((edgeIn s).rst = false ∧ pendingOp s = none ∧ step s = .next (clockEdge s)) := by
  unfold step
  split
  · rename_i h
    exact .inl ⟨h, rfl⟩
  · rename_i h
    split
    · rename_i i rest hp
      exact .inr (.inl ⟨by simpa using h, i, rest, hp, rfl⟩)
    · rename_i hp
      exact .inr (.inr ⟨by simpa using h, hp, rfl⟩)

end Sys2Proof.Machine
end

