-- ==== Sys2Proof/Laws/Decode.lean ====
section
/-! SUPPORT. The unassigned opcodes, said once. -/

namespace Sys2Proof

/-- A well-formed unassigned opcode is none of the eight assigned ones (R88). -/
theorem unassigned_ne (opcode : Byte) (h : (Instr.unassigned opcode).wellFormed = true) :
    opcode ≠ 0x10 ∧ opcode ≠ 0x11 ∧ opcode ≠ 0x12 ∧ opcode ≠ 0x20 ∧ opcode ≠ 0x21 ∧ opcode ≠ 0x30 ∧
    opcode ≠ 0x31 ∧ opcode ≠ 0x81 := by
  simpa only [Instr.wellFormed, assignedOpcodes, List.contains_eq_mem, Bool.not_eq_true', decide_eq_false_iff_not,
    List.mem_cons, List.not_mem_nil, or_false, not_or] using h

/-- Its format is Z (R82). -/
theorem formatOf_unassigned (opcode : Byte) (h : (Instr.unassigned opcode).wellFormed = true) :
    formatOf opcode = .Z := by
  obtain ⟨-, h11, -, -, h21, h30, -, h81⟩ := unassigned_ne opcode h
  rw [formatOf, if_neg h11, if_neg h21, if_neg h30, if_neg h81]

/-- Its operation is the unassigned one. -/
theorem decodeZ_unassigned (opcode : Byte) (h : (Instr.unassigned opcode).wellFormed = true) :
    decodeZ opcode = .unassigned opcode := by
  obtain ⟨h10, -, h12, h20, -, -, h31, -⟩ := unassigned_ne opcode h
  rw [decodeZ, if_neg h10, if_neg h12, if_neg h20, if_neg h31]

end Sys2Proof
end

