-- ==== Sys2Proof/Laws/PerInstr.lean ====
section
/-! SUPPORT. A statement made per operation: its encoding announces its own length (R87). -/

namespace Sys2Proof.Laws.FrameLength

/-- The bytes of a well-formed frame begin with what `frameLength` needs to know their number, whatever follows; an
operation that is no frame has no bytes. -/
def Statement (i : Instr) : Prop :=
  ∀ rest : List Byte, i.wellFormed = true →
    if i.isFrame = true then frameLength (encode i ++ rest) = some (encode i).length else encode i = []

theorem logDrain : Statement .logDrain := fun _ _ => rfl

theorem logAppend (text : List Byte) : Statement (.logAppend text) := by
  intro rest h
  simp only [Instr.wellFormed, decide_eq_true_eq] at h
  simp only [Instr.isFrame, if_true, encode, frameLength, formatOf, List.cons_append, List.head?_cons, Option.map_some,
    BitVec.toNat_ofNat, List.length_cons]
  congr 1
  omega

theorem logInit : Statement .logInit := fun _ _ => rfl

theorem muxInit : Statement .muxInit := fun _ _ => rfl

theorem muxSet (value : Byte) : Statement (.muxSet value) := fun _ _ => rfl

theorem encInit (maxCount : Byte) : Statement (.encInit maxCount) := fun _ _ => rfl

theorem encSample : Statement .encSample := fun _ _ => rfl

theorem ledSet (c0 c1 c2 c3 : Byte) : Statement (.ledSet c0 c1 c2 c3) := fun _ _ => rfl

theorem tick : Statement .tick := fun _ _ => rfl

theorem unassigned (opcode : Byte) : Statement (.unassigned opcode) := by
  intro rest h
  simp only [Instr.isFrame, if_true, encode, frameLength, List.cons_append, List.nil_append,
    formatOf_unassigned opcode h, List.length_cons, List.length_nil]

end Sys2Proof.Laws.FrameLength
end

