-- ==== Sys2Proof/Tests/Slice0.lean ====
section
/-! SUPPORT. The model's own tests: expected values from 95_test_vectors.md and the rules' worked examples, or worked out by
hand from the rules; and a witness for the hypotheses of every statement that has any. -/

namespace Sys2Proof.Tests

open Sys2Proof.Machine

/-- Asks something of the next state; a stop answers false. -/
def after (r : Result) (ask : State → Bool) : Bool :=
  match r with
  | .next t => ask t
  | .fault _ => false
  | .refused _ => false

/-! ## Well-formedness: each check refuses an ill-formed term -/

theorem test_wf_refuses_256_byte_text : (Instr.logAppend (List.replicate 256 0x41)).wellFormed = false := by
  decide +kernel
theorem test_wf_refuses_assigned_opcode : (Instr.unassigned 0x81).wellFormed = false := by decide

/-! ## Decoding: one frame per constructor, written out from R82 and R91 -/

theorem test_decode_log_drain : decode [0x10] = .ok (.logDrain, []) := by decide
theorem test_decode_log_append : decode [0x11, 0x02, 0x4F, 0x4B] = .ok (.logAppend [0x4F, 0x4B], []) := by decide
theorem test_decode_log_init : decode [0x12] = .ok (.logInit, []) := by decide
theorem test_decode_mux_init : decode [0x20] = .ok (.muxInit, []) := by decide
theorem test_decode_mux_set : decode [0x21, 0x2A] = .ok (.muxSet 42, []) := by decide
theorem test_decode_enc_init : decode [0x30, 0x14] = .ok (.encInit 20, []) := by decide
theorem test_decode_enc_sample : decode [0x31] = .ok (.encSample, []) := by decide
theorem test_decode_led_set : decode [0x81, 0x01, 0x00, 0x00, 0x01] = .ok (.ledSet 1 0 0 1, []) := by decide
theorem test_decode_unassigned : decode [0x7F, 0x21, 0x2A] = .ok (.unassigned 0x7F, [0x21, 0x2A]) := by decide
/-- X4: operand bytes equal to opcodes are operands. -/
theorem test_decode_operand_is_no_opcode : decode [0x11, 0x02, 0x10, 0x10] = .ok (.logAppend [0x10, 0x10], []) := by
  decide
theorem test_decode_waits_for_operands : decode [0x81, 0x01, 0x00] = .error (.incomplete 0x81) := by decide
theorem test_decode_waits_for_text : decode [0x11, 0x02, 0x10] = .error (.incomplete 0x11) := by decide
theorem test_decode_table_word : decodeTableWord 16 0x2A21 = some (.muxSet 42) := by decide
/-- TICK's row has no bits and is never decoded (R89). -/
theorem test_decode_table_word_tick : decodeTableWord 0 0 = none := by decide

/-! ## One operation -/

/-- M1, row 123. -/
theorem test_mux_set_wraps :
    after (exec (.muxSet 123) State.reset) (fun t => decide (t.display = ⟨123, 3, 2, .ones⟩)) = true := by decide

/-- M8. -/
theorem test_mux_init_while_running :
    after (exec .muxInit { State.reset with
        display := ⟨42, 2, 4, .tens⟩, pins := ⟨0x5B, .active, .inactive⟩, timer := ⟨true, 500, 100, true⟩ })
      (fun t => decide (t.display = ⟨0, 0, 0, .ones⟩ ∧ t.pins = ⟨0x5B, .inactive, .inactive⟩ ∧
        t.timer = ⟨true, 0, 0, false⟩)) = true := by decide

/-- A state of M2 and M3: ones 2, tens 4. -/
def showing (d : Digit) (onesLit tensLit : Enable) : State :=
  { State.reset with display := ⟨42, 2, 4, d⟩, pins := ⟨0x55, onesLit, tensLit⟩ }

/-- M2: the three pin values of a Tick from SHOW_ONES, the bus pattern symbolic. -/
theorem test_tick_from_ones :
    ∃ t, exec .tick (showing .ones .inactive .active) = .next t ∧ t.display.activeDigit = .tens ∧
      t.env.pinTrace = [⟨0x55, .inactive, .inactive⟩, ⟨Config.seg 2, .inactive, .inactive⟩,
        ⟨Config.seg 2, .active, .inactive⟩] :=
  ⟨_, rfl, rfl, rfl⟩

/-- M3. -/
theorem test_tick_from_tens :
    ∃ t, exec .tick (showing .tens .active .inactive) = .next t ∧ t.display.activeDigit = .ones ∧
      t.env.pinTrace = [⟨0x55, .inactive, .inactive⟩, ⟨Config.seg 4, .inactive, .inactive⟩,
        ⟨Config.seg 4, .inactive, .active⟩] :=
  ⟨_, rfl, rfl, rfl⟩

/-- The buffer holding "OK" CR LF from index 0 (L2). -/
def holdingOk : State :=
  { State.reset with log := ⟨[(0, 0x4F), (1, 0x4B), (2, 0x0D), (3, 0x0A)], 0, 4, 4⟩ }

/-- L2. -/
theorem test_append_ok :
    after (exec (.logAppend [0x4F, 0x4B]) State.reset) (fun t => decide (t.log = holdingOk.log)) = true := by decide

/-- L11's wrap-around in small, then the room left: from `(255, 255, 0)` the bytes continue at index 0. -/
theorem test_append_wraps :
    after (exec (.logAppend [0x41]) { State.reset with log := ⟨[], 255, 255, 0⟩ })
      (fun t => decide (t.log = ⟨[(0, 0x0D), (1, 0x0A), (255, 0x41)], 255, 2, 3⟩)) = true := by decide

/-- L2: prefix 3 (bias 1), the four bytes, 64 bytes in all. -/
theorem test_drain_ok :
    after (exec .logDrain holdingOk) (fun t => decide (t.seq.rsp.take 5 = [0x03, 0x4F, 0x4B, 0x0D, 0x0A] ∧
      t.seq.rsp.length = 64 ∧ t.log = { holdingOk.log with startIx := 4, level := 0 })) = true := by decide

/-- L14: block sizes 1 and 2. -/
theorem test_drain_extreme_sizes :
    after (drain 1 1 holdingOk) (fun t => decide (t.seq.rsp = [0x00] ∧ t.log = holdingOk.log)) = true ∧
    after (drain 2 0 holdingOk) (fun t => decide (t.seq.rsp = [0x01, 0x4F] ∧
      t.log = { holdingOk.log with startIx := 1, level := 3 })) = true := by decide

/-- R131's worked example. -/
theorem test_log_init :
    after (exec .logInit { State.reset with log := ⟨[(200, 0x41)], 200, 5, 61⟩ })
      (fun t => decide (t.log = ⟨[(200, 0x41)], 0, 0, 0⟩)) = true := by decide

/-- E19. -/
theorem test_enc_init :
    after (exec (.encInit 20) { State.reset with enc := ⟨7, 9, true⟩ })
      (fun t => decide (t.enc = ⟨0, 20, false⟩)) = true := by decide

/-- An encoder state with the answers of the coming `lines()` calls. -/
def sampling (count max : Byte) (closed : Bool) (answers : List Lines) : State :=
  { State.reset with enc := ⟨count, max, closed⟩, env := { State.reset.env with lines := answers } }

/-- The whole operation: E5, the second reading decides, and E7, both low at the top rail. -/
theorem test_sample_second_reading_decides :
    after (perform .encSample (sampling 5 20 false [⟨false, true⟩, ⟨true, false⟩]))
      (fun t => decide (t.enc = ⟨4, 20, true⟩ ∧ t.seq.rsp = [0x04])) = true ∧
    after (perform .encSample (sampling 20 20 false [⟨false, false⟩, ⟨false, false⟩]))
      (fun t => decide (t.enc = ⟨19, 20, true⟩ ∧ t.seq.rsp = [0x13])) = true := by decide

/-- R153's first line of the gate's branch: before the settle wait the gate is closed and nothing is counted or answered. -/
theorem test_sample_starts_wait :
    after (exec .encSample (sampling 5 20 false [⟨false, true⟩, ⟨false, true⟩]))
      (fun t => decide (t.enc = ⟨5, 20, true⟩ ∧ t.seq.rsp = [] ∧ t.env.lines = [⟨false, true⟩] ∧
        t.seq.settle ≠ .idle)) = true := by decide

/-- X2, X3. -/
theorem test_led_and_unassigned_change_nothing :
    after (exec (.ledSet 0x21 0x63 0xFF 0x02) holdingOk) (fun t => decide (t = holdingOk)) = true ∧
    after (exec (.unassigned 0x7F) holdingOk) (fun t => decide (t = holdingOk)) = true := by decide

/-! ## One edge -/

/-- A clock edge at which FG offers a byte and HOST is ready. -/
def busyEdge : EdgeIn := { rst := false, cmdValid := true, rspReady := true }

/-- T2: with a request pending and a whole MUX.SET waiting, the Tick goes first and the frame stays. -/
theorem test_tick_before_frame :
    after (step { showing .ones .inactive .active with
        timer := ⟨true, 0, 0, true⟩, seq := ⟨[0x21, 0x07], .idle, .idle, []⟩,
        env := { State.reset.env with edges := [busyEdge], cmd := [0x20] } })
      (fun t => decide (t.display = ⟨42, 2, 4, .ones⟩ ∧ t.pins = ⟨0x55, .inactive, .inactive⟩ ∧
        t.seq = ⟨[0x21, 0x07], .p1, .idle, []⟩ ∧ t.env.cmd = [0x20] ∧ t.timer.tickPending = false)) = true := by decide

/-- R93, R223: a complete frame takes effect and FG's next byte comes in at the same edge. -/
theorem test_frame_takes_effect :
    after (step { State.reset with
        seq := ⟨[0x21, 0x2A], .idle, .idle, []⟩, env := { State.reset.env with edges := [busyEdge], cmd := [0x20] } })
      (fun t => decide (t.display = ⟨42, 2, 4, .ones⟩ ∧ t.seq.frame = [0x20] ∧ t.env.cmd = [])) = true := by decide

/-- T1: the edge that completes a period. -/
theorem test_timer_period_end :
    Timer.edge Config.timerTop ⟨true, 1023, 250, false⟩ = ⟨true, 0, 0, true⟩ := by decide

/-- T3: a settle wait with two clocks left and a Tick requested. -/
def inWait : State :=
  { showing .ones .inactive .active with
    enc := ⟨5, 20, true⟩, timer := ⟨true, 0, 0, true⟩, seq := ⟨[], .idle, .counting 2, []⟩,
    env := { State.reset.env with edges := [busyEdge, busyEdge, busyEdge], lines := [⟨false, true⟩] } }

/-- T3, R153: two edges pass, the third takes the second reading; the Tick has run meanwhile. -/
theorem test_wait_then_second_reading :
    after (steps 2 inWait) (fun t => decide (t.enc = ⟨5, 20, true⟩ ∧ t.seq = ⟨[], .p2, .counting 0, []⟩)) = true ∧
    after (steps 3 inWait) (fun t => decide (t.enc = ⟨6, 20, true⟩ ∧ t.seq = ⟨[], .p3, .idle, [0x06]⟩ ∧
      t.env.lines = [] ∧ t.display = ⟨42, 2, 4, .tens⟩)) = true := by decide

theorem test_fetch_word_runs :
    after (step (State.reset.withFetchWord 16 0x2A21)) (fun t => decide (t.display = ⟨42, 2, 4, .ones⟩)) = true := by
  decide

/-- The row of no bits: the next edge enters a Tick. -/
theorem test_fetch_tick :
    after (step (State.reset.withFetchWord 0 0)) (fun t => decide (t.seq.tickPhase = .p1)) = true := by decide

/-! ## Witnesses: the hypotheses of each statement hold together somewhere -/

/-- A state at an edge without reset at which nothing moves. -/
def quiet (s : State) : State := { s with env := { s.env with edges := [quietEdge, quietEdge, quietEdge] } }

/-- A state with a Tick requested, three quiet edges ahead. -/
def requested : State := quiet { State.reset with timer := ⟨true, 0, 0, true⟩ }

/-- A state with a complete LOG.APPEND waiting. -/
def waiting : State := quiet { State.reset with seq := ⟨[0x11, 0x00], .idle, .idle, []⟩ }

theorem witness_DecodeInvertsEncode :
    (Instr.logAppend (List.replicate 255 0x41)).wellFormed = true ∧
    (Instr.logAppend (List.replicate 255 0x41)).isFrame = true ∧ (Instr.unassigned 0x00).wellFormed = true :=
  ⟨by decide +kernel, rfl, by decide⟩

theorem witness_DecodedBytesAreTheEncoding : decode [0x11, 0x00, 0x10] = .ok (.logAppend [], [0x10]) := by decide

theorem witness_DecoderWaitsForWholeFrame :
    (frameLength [0x21, 0x10] = some 2 ∧ 2 ≤ [0x21, 0x10].length) ∧ (frameLength [0x21] = some 2 ∧ [0x21].length < 2) ∧
    frameLength [0x11] = none ∧ (0x10 : Byte) ≠ 0x11 := by decide

theorem witness_UnassignedOpcodesAreOneByteFrames :
    (0x00 : Byte) ∉ ([0x10, 0x11, 0x12, 0x20, 0x21, 0x30, 0x31, 0x81] : List Byte) ∧
    (0xFF : Byte) ∉ ([0x10, 0x11, 0x12, 0x20, 0x21, 0x30, 0x31, 0x81] : List Byte) := by decide

theorem witness_StepRunsTheCompleteFrame :
    (edgeIn waiting).rst = false ∧ phaseAt waiting = .idle ∧ waiting.seq.settle = .idle ∧ waiting.seq.rsp = [] ∧
    decode waiting.seq.frame = .ok (.logAppend [], []) := by decide

theorem witness_PlacedFrameRunsAtNextStep : decodeTableWord 40 0x0100000181 = some (.ledSet 1 0 0 1) := by decide

theorem witness_HardwareResetWins :
    (edgeIn { requested with env := { requested.env with edges := [⟨true, true, true⟩] } }).rst = true := by decide

/-- Each of the three ways to be held off, the settle wait in the middle and at the clock of the second reading. -/
theorem witness_HeldForegroundDoesNothing :
    ((edgeIn requested).rst = false ∧ phaseAt requested ≠ .idle ∧ requested.seq.settle ≠ .counting 0) ∧
    ((edgeIn (quiet { State.reset with seq := ⟨[], .idle, .counting 1, []⟩ })).rst = false ∧
      (quiet { State.reset with seq := ⟨[], .idle, .counting 1, []⟩ }).seq.settle ≠ .idle ∧
      (quiet { State.reset with seq := ⟨[], .idle, .counting 1, []⟩ }).seq.settle ≠ .counting 0) ∧
    (quiet { State.reset with seq := ⟨[], .idle, .counting 0, []⟩ }).seq.settle ≠ .idle ∧
    ((edgeIn (quiet { State.reset with seq := ⟨[], .idle, .idle, [5]⟩ })).rst = false ∧
      (quiet { State.reset with seq := ⟨[], .idle, .idle, [5]⟩ }).seq.rsp ≠ []) := by decide

/-- An edge with half a frame in the decoder. -/
theorem witness_IdleEdgeChangesNothing :
    let s := quiet { State.reset with seq := ⟨[0x21], .idle, .idle, []⟩ }
    (edgeIn s).rst = false ∧ phaseAt s = .idle ∧ s.seq.settle = .idle ∧ s.seq.rsp = [] ∧
    ∀ i rest, decode s.seq.frame ≠ .ok (i, rest) :=
  ⟨rfl, rfl, rfl, rfl, fun _ _ h => by cases h⟩

/-- HOST ready, and HOST not ready. -/
theorem witness_ResponseBytesMoveInOrder :
    (let s := { State.reset with
        seq := ⟨[], .idle, .idle, [5, 6]⟩, env := { State.reset.env with edges := [busyEdge] } }
     (edgeIn s).rst = false ∧ s.seq.settle ≠ .counting 0 ∧ s.seq.rsp = 5 :: [6] ∧ (edgeIn s).rspReady = true) ∧
    (let s := quiet { State.reset with seq := ⟨[], .idle, .idle, [5]⟩ }
     (edgeIn s).rst = false ∧ s.seq.settle ≠ .counting 0 ∧ s.seq.rsp = 5 :: [] ∧ (edgeIn s).rspReady = false) := by
  decide

/-- For every statement about a step without reset that answers a next state: one with an operation taking effect, and one
with none. -/
theorem witness_step_without_reset :
    (∃ t, (edgeIn waiting).rst = false ∧ step waiting = .next t) ∧
    (∃ t, (edgeIn requested).rst = false ∧ step requested = .next t) :=
  ⟨⟨_, rfl, rfl⟩, ⟨_, rfl, rfl⟩⟩

theorem witness_EnablePinsNeverBothAtActiveLevel : (Pins.exclusive ⟨0, .active, .inactive⟩) = true := by decide

/-- Both clauses at their boundary: 254 bytes fit an empty buffer, 255 never do. -/
theorem witness_AppendStoresWholeOrNothing :
    (List.replicate 254 (0x41 : Byte)).length ≤ 255 ∧ (List.replicate 255 (0x41 : Byte)).length ≤ 255 ∧
    State.reset.log.level.toNat + (List.replicate 254 (0x41 : Byte)).length + 2 ≤ 256 ∧
    256 < State.reset.log.level.toNat + (List.replicate 255 (0x41 : Byte)).length + 2 := by decide +kernel

theorem witness_DrainReturnsOldestBytes :
    ([0x4F, 0x4B, 0x0D, 0x0A] : List Byte).length = min holdingOk.log.level.toNat 63 ∧
    (∀ j < 4, holdingOk.log.ring.read ((holdingOk.log.startIx.toNat + j) % 256) =
      ([0x4F, 0x4B, 0x0D, 0x0A] : List Byte)[j]?) ∧
    ([] : List Byte).length = min State.reset.log.level.toNat 63 := by decide

/-- A buffer that claims a byte nothing has written: no run reaches it. -/
theorem witness_DrainFaultsExactlyOnUnwrittenByte :
    exec .logDrain { State.reset with log := ⟨[], 7, 8, 1⟩ } = .fault (.ringUnwritten 7) := rfl

/-- The sound buffer of L2, held bytes and all. -/
theorem holdingOk_holds : holdingOk.log.holds [0x4F, 0x4B, 0x0D, 0x0A] := by
  refine ⟨by decide, by decide, ?_⟩
  show ∀ j < 4, _
  decide

theorem holdingOk_sound : holdingOk.log.sound := ⟨by decide, by decide, _, holdingOk_holds⟩

theorem witness_LogBufferIsFifo :
    (∀ i ∈ [Instr.logAppend [0x41], Instr.logDrain], i = .logDrain ∨ ∃ text, i = .logAppend text) ∧
    holdingOk.log.sound ∧ holdingOk.log.holds [0x4F, 0x4B, 0x0D, 0x0A] := by
  refine ⟨?_, holdingOk_sound, holdingOk_holds⟩
  intro i hi
  simp only [List.mem_cons, List.not_mem_nil, or_false] at hi
  rcases hi with rfl | rfl
  · exact .inr ⟨_, rfl⟩
  · exact .inl rfl

/-- Both branches: a Sample that waits and one that does not. -/
theorem witness_SampleEffect :
    (sampling 5 20 false [⟨false, true⟩, ⟨true, false⟩]).seq.settle = .idle ∧
    (sampling 5 20 true [⟨true, true⟩]).seq.settle = .idle := ⟨rfl, rfl⟩

/-- Two clocks left, and none. -/
theorem witness_SettleWaitThenSecondReading :
    (inWait.seq.settle = .counting 2 ∧ inWait.seq.rsp = [] ∧
      inWait.env.edges = [busyEdge, busyEdge, busyEdge] ++ [] ∧ [busyEdge, busyEdge, busyEdge].length = 2 + 1 ∧
      (∀ e ∈ [busyEdge, busyEdge, busyEdge], e.rst = false) ∧ inWait.env.lines = ⟨false, true⟩ :: []) ∧
    ({ inWait with seq := ⟨[], .idle, .counting 0, []⟩ } : State).seq.settle = .counting 0 ∧
    inWait.env.edges = [busyEdge] ++ [busyEdge, busyEdge] := by decide

theorem witness_LinesAnswerInOrder :
    (sampling 5 20 false [⟨false, true⟩, ⟨true, false⟩]).env.lines = ⟨false, true⟩ :: [⟨true, false⟩] := rfl

/-- At both rails. -/
theorem witness_CountStaysWithinRails :
    (sampling 20 20 false []).enc.count.toNat ≤ (sampling 20 20 false []).enc.max.toNat ∧
    (sampling 0 20 false []).enc.count.toNat ≤ (sampling 0 20 false []).enc.max.toNat := by decide

theorem witness_CyclesOnACountUpToTheRail :
    let s := sampling 19 20 false [⟨false, true⟩, ⟨false, true⟩, ⟨true, true⟩, ⟨false, true⟩, ⟨false, true⟩, ⟨true, true⟩]
    s.enc.count.toNat ≤ s.enc.max.toNat ∧ s.enc.gateClosed = false ∧ s.seq.settle = .idle ∧
    s.env.lines = (List.replicate 2 [⟨false, true⟩, ⟨false, true⟩, ⟨true, true⟩]).flatten ++ [] := by decide

/-- E20 from the open gate, and the closed gate. -/
theorem witness_HeldLineCountsOnce :
    (let s := sampling 5 20 false [⟨false, true⟩, ⟨false, true⟩, ⟨false, true⟩, ⟨true, true⟩]
     s.enc.gateClosed = false ∧ s.seq.settle = .idle ∧ (∀ l ∈ [(⟨false, true⟩ : Lines)], l.a = false ∨ l.b = false) ∧
     s.env.lines = ⟨false, true⟩ :: ⟨false, true⟩ :: ([⟨false, true⟩] ++ [⟨true, true⟩])) ∧
    let s := sampling 5 20 true [⟨false, true⟩, ⟨false, false⟩, ⟨true, true⟩]
    s.enc.gateClosed = true ∧ s.seq.settle = .idle ∧ (∀ l ∈ [(⟨false, true⟩ : Lines), ⟨false, false⟩], l.a = false ∨ l.b = false) ∧
    s.env.lines = [⟨false, true⟩, ⟨false, false⟩] ++ [⟨true, true⟩] := by decide

/-- The last edge of a period with compare value 250. -/
theorem witness_TimerRequestsOncePerPeriod : 257023 < 1024 * (Config.timerTop.toNat + 1) := by decide

/-- Both clauses: an edge with MUX.INIT and one without. -/
theorem witness_TimerAdvancesAtEveryEdge :
    (let s := quiet { State.reset with seq := ⟨[0x20], .idle, .idle, []⟩ }
     (edgeIn s).rst = false ∧ (∃ t, step s = .next t) ∧ pendingOp s = some (.muxInit, [])) ∧
    ((edgeIn requested).rst = false ∧ (∃ t, step requested = .next t) ∧ pendingOp requested = none) :=
  ⟨⟨rfl, ⟨_, rfl⟩, by decide⟩, ⟨rfl, ⟨_, rfl⟩, by decide⟩⟩

theorem witness_NoTickBeforeMuxInit :
    (edgeIn waiting).rst = false ∧ waiting.timer.timerRun = false ∧ waiting.timer.tickPending = false ∧
    waiting.seq.tickPhase = .idle ∧ (∀ rest, pendingOp waiting ≠ some (.muxInit, rest)) ∧ ∃ t, step waiting = .next t := by
  refine ⟨rfl, rfl, rfl, rfl, ?_, _, rfl⟩
  have h : pendingOp waiting = some (.logAppend [], []) := by decide
  intro rest
  rw [h]
  simp

/-- With no frame and with a complete one. -/
theorem witness_PendingRequestEntersTick :
    (edgeIn requested).rst = false ∧ requested.timer.tickPending = true ∧ requested.seq.tickPhase = .idle ∧
    ({ requested with seq := waiting.seq } : State).seq.tickPhase = .idle ∧
    decode ({ requested with seq := waiting.seq } : State).seq.frame = .ok (.logAppend [], []) := by decide

/-- No reset at any of the three edges. -/
theorem witness_ThreeEdgesAreOneTick :
    requested.timer.tickPending = true ∧ requested.seq.tickPhase = .idle ∧ (edgeIn requested).rst = false ∧
    (∃ s1, step requested = .next s1 ∧ (edgeIn s1).rst = false ∧
      ∃ s2, step s1 = .next s2 ∧ (edgeIn s2).rst = false) :=
  ⟨rfl, rfl, rfl, _, rfl, rfl, _, rfl, rfl⟩

theorem witness_SubBlocksAreDisjoint :
    (∃ t, exec (.logAppend []) State.reset = .next t) ∧ (∃ t, exec (.encInit 3) State.reset = .next t) ∧
    (∃ t, exec .tick State.reset = .next t) := ⟨⟨_, rfl⟩, ⟨_, rfl⟩, ⟨_, rfl⟩⟩

/-- A sound state of the display and the pins, in the middle of a Tick. -/
theorem witness_EveryStepKeepsDigitsAndEnables :
    (showing .ones .inactive .active).display.sound ∧ (showing .ones .inactive .active).pinsSafe :=
  ⟨⟨by decide, by decide⟩, by decide, by decide, by simp [showing, State.reset]⟩

theorem witness_EveryStepKeepsTheRing :
    (quiet holdingOk).log.sound ∧ ∃ t, step (quiet holdingOk) = .next t := ⟨holdingOk_sound, _, rfl⟩

/-- Every premise of the invariant together, with a Tick requested and a message held. -/
theorem witness_BlockNeverStops :
    ({ requested with log := holdingOk.log } : State).Inv where
  display := ⟨by decide, by decide⟩
  pins := ⟨by decide, by decide, by simp [requested, quiet, State.reset]⟩
  log := holdingOk_sound
  enc := Nat.le_refl _
  timer := ⟨by decide, fun _ => rfl⟩
  seq := by intro i rest h; simp [requested, quiet, State.reset, decode] at h
  wait := by intro left h; cases h

end Sys2Proof.Tests
end

section
/-! PROOF. What one operation can do to each part of the state, and that every step keeps each part of the invariant
(10_state.md R23 to R37, R93, R180): each part on its own first, then the whole block. -/

namespace Sys2Proof.Machine

/-! ## TICK as one operation (R113) -/

/-- The state a whole TICK leaves. -/
def ticked (s : State) : State := tickP3 (tickP2 (enterTick s))

/-- The pin values of a TICK's three phases, in order. -/
def tickDriven (s : State) : List Pins :=
  let data : Pins := { s.pins.dark with seg := Config.seg s.display.shown }
  [s.pins.dark, data, data.light s.display.activeDigit]

theorem exec_tick (s : State) : exec .tick s = .next (ticked s) := rfl

@[simp] theorem ticked_log (s : State) : (ticked s).log = s.log := rfl
@[simp] theorem ticked_enc (s : State) : (ticked s).enc = s.enc := rfl
@[simp] theorem ticked_seq (s : State) : (ticked s).seq = s.seq := rfl
@[simp] theorem ticked_env (s : State) :
    (ticked s).env = { s.env with pinTrace := s.env.pinTrace ++ tickDriven s } := by
  simp [ticked, tickP3, tickP2, enterTick, tickP1, tickDriven]

/-- What stands on the pins after a TICK is the value of its last phase. -/
theorem ticked_pins_mem (s : State) : (ticked s).pins ∈ tickDriven s :=
  .tail _ (.tail _ (.head _))

/-- A TICK never drives both enables active, whatever stood on the pins before it (R28). -/
theorem tickDriven_exclusive (s : State) : ∀ p ∈ tickDriven s, p.exclusive = true := by
  simp only [tickDriven, List.forall_mem_cons]
  exact ⟨Pins.dark_exclusive _, Pins.dark_exclusive { s.pins with seg := Config.seg s.display.shown },
    Pins.light_exclusive _ _ rfl rfl, by simp⟩

/-! ## The log buffer's loops keep a consistent ring -/

/-- A ring with no valid byte holds the empty queue. -/
theorem LogBuffer.sound_empty (ring : Memory) (h : ring.wf = true) :
    LogBuffer.sound { ring := ring, startIx := 0, endIx := 0, level := 0 } :=
  ⟨h, by simp, [], by simp, by simp, by simp⟩

/-- LOG.APPEND's loop adds its bytes at the back of the queue, as long as they fit. -/
theorem LogBuffer.holds_pushAll (l : LogBuffer) (held bytes : List Byte) (h : l.holds held)
    (hfit : held.length + bytes.length ≤ 256) : (l.pushAll bytes).holds (held ++ bytes) := by
  obtain ⟨hlevel, hend, hread⟩ := h
  simp only [ringCapacity_eq] at hend hread
  refine ⟨?_, ?_, ?_⟩
  · rw [LogBuffer.pushAll_level _ _ (by omega), List.length_append, hlevel]
  · rw [LogBuffer.pushAll_endIx, LogBuffer.pushAll_startIx, List.length_append, ringCapacity_eq]
    omega
  · intro j hj
    rw [List.length_append] at hj
    rw [LogBuffer.pushAll_startIx, ringCapacity_eq]
    by_cases hold : j < held.length
    · rw [LogBuffer.pushAll_read_other, hread j hold, List.getElem?_append_left hold]
      intro j' hj'
      omega
    · have hpos : (l.startIx.toNat + j) % 256 = (l.endIx.toNat + (j - held.length)) % 256 := by omega
      rw [hpos, LogBuffer.pushAll_read_stored _ _ (by omega) _ (by omega),
        List.getElem?_append_right (by omega)]

/-- LOG.DRAIN's loop takes its bytes from the front of the queue. -/
theorem LogBuffer.holds_popMany (k : Nat) (l l' : LogBuffer) (held bytes : List Byte) (h : l.holds held)
    (hk : k ≤ l.level.toNat) (hpop : l.popMany k = .ok (bytes, l')) : l'.holds (held.drop k) := by
  obtain ⟨hlevel, hend, hread⟩ := h
  obtain ⟨-, -, hring', hend', hstart', hlevel'⟩ := LogBuffer.popMany_ok k l l' bytes hk hpop
  simp only [ringCapacity_eq] at hend hread
  refine ⟨?_, ?_, ?_⟩
  · rw [hlevel', hlevel, List.length_drop]
  · rw [hend', hend, hstart', List.length_drop, ringCapacity_eq]
    omega
  · intro j hj
    rw [List.length_drop] at hj
    have hpos : ((l.startIx.toNat + k) % 256 + j) % 256 = (l.startIx.toNat + (k + j)) % 256 := by omega
    rw [hring', hstart', ringCapacity_eq, hpos, hread (k + j) (by omega), List.getElem?_drop]

theorem LogBuffer.sound_pushAll (l : LogBuffer) (bytes : List Byte) (h : l.sound)
    (hfit : l.level.toNat + bytes.length ≤ 256) : (l.pushAll bytes).sound := by
  obtain ⟨hwf, -, held, hheld⟩ := h
  have hlevel : l.level.toNat = held.length := hheld.1
  refine ⟨LogBuffer.pushAll_wf _ _ hwf, ?_, held ++ bytes, LogBuffer.holds_pushAll l held bytes hheld (by omega)⟩
  rw [LogBuffer.pushAll_level _ _ (by omega), ringCapacity_eq]
  exact hfit

theorem LogBuffer.sound_popMany (k : Nat) (l l' : LogBuffer) (bytes : List Byte) (h : l.sound)
    (hk : k ≤ l.level.toNat) (hpop : l.popMany k = .ok (bytes, l')) : l'.sound := by
  obtain ⟨hwf, hcap, held, hheld⟩ := h
  obtain ⟨-, -, hring', -, -, hlevel'⟩ := LogBuffer.popMany_ok k l l' bytes hk hpop
  exact ⟨hring' ▸ hwf, by omega, held.drop k, LogBuffer.holds_popMany k l l' held bytes hheld hk hpop⟩

theorem payloadCount_le_level (N : Nat) (level : Level) : payloadCount N level ≤ level.toNat := Nat.min_le_left _ _

/-- In a sound buffer every byte a Drain reads has been written, so its loop ends (R70). -/
theorem LogBuffer.popMany_completes (k : Nat) (l : LogBuffer) (h : l.sound) (hk : k ≤ l.level.toNat) :
    ∃ p, l.popMany k = .ok p := by
  obtain ⟨-, -, held, hheld⟩ := h
  exact (LogBuffer.popMany_total k l).1 fun j hj => LogBuffer.holds_isSome l held hheld j (by omega)

/-! ## What one operation can do to each part of the state -/

/-- A LOG.DRAIN that completes: its loop has ended, and the block stands in the response shifter. -/
theorem exec_logDrain_next (s t : State) (h : exec .logDrain s = .next t) :
    ∃ payload log n bytes, s.log.popMany (payloadCount Config.reportSize s.log.level) = .ok (payload, log) ∧
      t = emitPad n (emit bytes (s.withLog log)) := by
  obtain ⟨payload, log, hpop, hnext⟩ | ⟨_, -, hfault⟩ := drain_cases Config.reportSize Config.drainPrefixBias s
  · exact ⟨payload, log, _, _, hpop, Host.Outcome.next.inj (h.symm.trans hnext)⟩
  · exact absurd (h.symm.trans hfault) (by simp)

/-- An ENC.SAMPLE up to its settle wait: one reading, a gate, and either the response byte or the wait, which only a gate
just closed begins. -/
theorem exec_encSample_next (s t : State) (h : exec .encSample s = .next t) :
    (∃ gate, t = answerCount ((linesTaken s).withEnc { s.enc with gateClosed := gate })) ∨
    t = beginWait (linesTaken s) := by
  obtain ⟨gate, hnext, -⟩ | ⟨-, -, hnext⟩ := execEncSample_cases s
  · exact .inl ⟨gate, Host.Outcome.next.inj (h.symm.trans hnext)⟩
  · exact .inr (Host.Outcome.next.inj (h.symm.trans hnext))

/-- A LOG.APPEND changes nothing, or stores a message that fits. -/
theorem exec_logAppend_next (text : List Byte) (s t : State) (h : exec (.logAppend text) s = .next t) :
    t = s ∨ (s.log.level.toNat + (stored text).length ≤ 256 ∧ t = s.withLog (s.log.pushAll (stored text))) := by
  have hlen : (stored text).length = text.length + 2 := by simp [stored]
  by_cases hfit : s.log.level.toNat + text.length + 2 ≤ 256
  · exact .inr ⟨by omega, Host.Outcome.next.inj (h.symm.trans (execLogAppend_accepted text s hfit))⟩
  · exact .inl (Host.Outcome.next.inj (h.symm.trans (execLogAppend_dropped text s (by omega))))

/-- All that an operation can do to the LogBuffer: nothing, LOG.INIT, LOG.APPEND's loop, or LOG.DRAIN's loop. -/
theorem exec_log_cases (i : Instr) (s t : State) (h : exec i s = .next t) :
    t.log = s.log ∨
    t.log = { s.log with startIx := 0, endIx := 0, level := 0 } ∨
    (∃ bytes, s.log.level.toNat + bytes.length ≤ 256 ∧ t.log = s.log.pushAll bytes) ∨
    (∃ k payload, k ≤ s.log.level.toNat ∧ s.log.popMany k = .ok (payload, t.log)) := by
  cases i with
  | logInit => cases h; exact .inr (.inl rfl)
  | logAppend text =>
    obtain rfl | ⟨hfit, rfl⟩ := exec_logAppend_next text s t h
    · exact .inl rfl
    · exact .inr (.inr (.inl ⟨stored text, hfit, rfl⟩))
  | logDrain =>
    obtain ⟨payload, log, n, bytes, hpop, rfl⟩ := exec_logDrain_next s t h
    exact .inr (.inr (.inr ⟨_, payload, payloadCount_le_level _ _, hpop⟩))
  | encSample =>
    obtain ⟨gate, rfl⟩ | rfl := exec_encSample_next s t h <;> exact .inl (linesTaken_log s)
  | muxInit | muxSet | encInit | ledSet | tick | unassigned => cases h; exact .inl rfl

/-- All that an operation can do to the encoder: move the gate at most (up to its settle wait a Sample does no more), or
ENC.INIT. -/
theorem exec_enc_cases (i : Instr) (s t : State) (h : exec i s = .next t) :
    (∃ gate, t.enc = { s.enc with gateClosed := gate }) ∨
    (∃ max, t.enc = { count := 0, max := max, gateClosed := false }) := by
  have same : ∀ u : State, u.enc = s.enc → ∃ gate, u.enc = { s.enc with gateClosed := gate } :=
    fun _ hu => ⟨s.enc.gateClosed, hu⟩
  cases i with
  | encInit max => cases h; exact .inr ⟨max, rfl⟩
  | encSample =>
    obtain ⟨gate, rfl⟩ | rfl := exec_encSample_next s t h
    · exact .inl ⟨gate, rfl⟩
    · exact .inl ⟨true, by simp⟩
  | logAppend text =>
    obtain rfl | ⟨-, rfl⟩ := exec_logAppend_next text s t h <;> exact .inl (same _ rfl)
  | logDrain =>
    obtain ⟨_, _, _, _, -, rfl⟩ := exec_logDrain_next s t h
    exact .inl (same _ rfl)
  | logInit | muxInit | muxSet | ledSet | tick | unassigned => cases h; exact .inl (same _ rfl)

/-- All that an operation can do to the DisplayState: choose the digit at most (TICK), MUX.INIT, or MUX.SET. -/
theorem exec_display_cases (i : Instr) (s t : State) (h : exec i s = .next t) :
    (∃ digit, t.display = { s.display with activeDigit := digit }) ∨
    t.display = { buffer := 0, ones := 0, tens := 0, activeDigit := .ones } ∨
    (∃ value, t.display = { s.display with buffer := value, ones := (digits value).1, tens := (digits value).2 }) := by
  have same : ∀ u : State, u.display = s.display → ∃ digit, u.display = { s.display with activeDigit := digit } :=
    fun _ hu => ⟨s.display.activeDigit, hu⟩
  cases i with
  | muxInit => cases h; exact .inr (.inl rfl)
  | muxSet value => cases h; exact .inr (.inr ⟨value, rfl⟩)
  | tick => cases h; exact .inl ⟨s.display.activeDigit.flip, rfl⟩
  | encSample =>
    obtain ⟨gate, rfl⟩ | rfl := exec_encSample_next s t h <;> exact .inl (same _ (linesTaken_display s))
  | logAppend text =>
    obtain rfl | ⟨-, rfl⟩ := exec_logAppend_next text s t h <;> exact .inl (same _ rfl)
  | logDrain =>
    obtain ⟨_, _, _, _, -, rfl⟩ := exec_logDrain_next s t h
    exact .inl (same _ rfl)
  | logInit | encInit | ledSet | unassigned => cases h; exact .inl (same _ rfl)

/-- All that an operation can do to the timer: nothing, restart it (MUX.INIT), or clear the request (TICK). -/
theorem exec_timer_cases (i : Instr) (s t : State) (h : exec i s = .next t) :
    t.timer = s.timer ∨
    t.timer = { timerRun := true, presc := 0, tcnt := 0, tickPending := false } ∨
    t.timer = { s.timer with tickPending := false } := by
  cases i with
  | muxInit => cases h; exact .inr (.inl rfl)
  | tick => cases h; exact .inr (.inr rfl)
  | encSample =>
    obtain ⟨gate, rfl⟩ | rfl := exec_encSample_next s t h <;> exact .inl (linesTaken_timer s)
  | logAppend text =>
    obtain rfl | ⟨-, rfl⟩ := exec_logAppend_next text s t h <;> exact .inl rfl
  | logDrain =>
    obtain ⟨_, _, _, _, -, rfl⟩ := exec_logDrain_next s t h
    exact .inl rfl
  | logInit | muxSet | encInit | ledSet | unassigned => cases h; exact .inl rfl

/-- An operation leaves the pins alone, or drives them (MUX.INIT, TICK) without ever having both enables active: every
value it adds to the pin trace is exclusive, and so is what stands on the pins after it. -/
theorem exec_pins_cases (i : Instr) (s t : State) (h : exec i s = .next t) :
    (t.pins = s.pins ∧ t.env.pinTrace = s.env.pinTrace) ∨
    (t.pins.exclusive = true ∧
      ∃ driven, t.env.pinTrace = s.env.pinTrace ++ driven ∧ ∀ p ∈ driven, p.exclusive = true) := by
  cases i with
  | muxInit => cases h; exact .inr ⟨Pins.dark_exclusive _, [s.pins.dark], rfl, by simp [Pins.dark_exclusive]⟩
  | tick =>
    obtain rfl : ticked s = t := Host.Outcome.next.inj ((exec_tick s).symm.trans h)
    exact .inr ⟨tickDriven_exclusive s _ (ticked_pins_mem s), tickDriven s, by simp, tickDriven_exclusive s⟩
  | encSample =>
    obtain ⟨gate, rfl⟩ | rfl := exec_encSample_next s t h <;>
      exact .inl ⟨linesTaken_pins s, linesTaken_pinTrace s⟩
  | logAppend text =>
    obtain rfl | ⟨-, rfl⟩ := exec_logAppend_next text s t h <;> exact .inl ⟨rfl, rfl⟩
  | logDrain =>
    obtain ⟨_, _, _, _, -, rfl⟩ := exec_logDrain_next s t h
    exact .inl ⟨rfl, rfl⟩
  | logInit | muxSet | encInit | ledSet | unassigned => cases h; exact .inl ⟨rfl, rfl⟩

/-- No operation touches the frame decoder or the Tick phase, and only a Sample that closes the gate begins a settle wait;
it answers nothing yet (R153). -/
theorem exec_seq_cases (i : Instr) (s t : State) (h : exec i s = .next t) :
    t.seq.frame = s.seq.frame ∧ t.seq.tickPhase = s.seq.tickPhase ∧
    (t.seq.settle = s.seq.settle ∨
      (t.seq.settle = .counting Config.settleCycles ∧ t.enc.gateClosed = true ∧ t.seq.rsp = s.seq.rsp)) := by
  cases i with
  | encSample =>
    obtain ⟨gate, rfl⟩ | rfl := exec_encSample_next s t h <;> simp
  | logAppend text =>
    obtain rfl | ⟨-, rfl⟩ := exec_logAppend_next text s t h <;> exact ⟨rfl, rfl, .inl rfl⟩
  | logDrain =>
    obtain ⟨_, _, _, _, -, rfl⟩ := exec_logDrain_next s t h
    exact ⟨rfl, rfl, .inl rfl⟩
  | logInit | muxInit | muxSet | encInit | ledSet | tick | unassigned => cases h; exact ⟨rfl, rfl, .inl rfl⟩

/-- In a state with a sound log buffer every operation completes: no fault, no refusal (R180). -/
theorem exec_completes (i : Instr) (s : State) (h : s.log.sound) : ∃ t, exec i s = .next t := by
  cases i with
  | logDrain =>
    obtain ⟨_, _, -, hnext⟩ | ⟨a, herror, -⟩ := drain_cases Config.reportSize Config.drainPrefixBias s
    · exact ⟨_, hnext⟩
    · obtain ⟨p, hok⟩ := LogBuffer.popMany_completes _ s.log h (payloadCount_le_level Config.reportSize s.log.level)
      exact absurd (herror.symm.trans hok) (by simp)
  | logAppend | logInit | muxInit | muxSet | encInit | encSample | ledSet | tick | unassigned => exact ⟨_, rfl⟩

/-! ## A property that every step keeps -/

/-- To keep a property through a step: the hardware reset has it, the edge keeps it, and the operation that takes effect at
the edge keeps it. -/
theorem step_keeps (P : State → Prop) (s t : State) (hreset : P (hardReset s)) (hedge : P (clockEdge s))
    (hexec : ∀ i rest, pendingOp s = some (i, rest) → exec i (clockEdge s) = .next t → P t)
    (h : step s = .next t) : P t := by
  obtain ⟨-, hs⟩ | ⟨-, i, rest, hop, hs⟩ | ⟨-, -, hs⟩ := step_cases s
  · cases h.symm.trans hs; exact hreset
  · exact hexec i rest hop (hs.symm.trans h)
  · cases h.symm.trans hs; exact hedge

theorem fgFree_of_pendingOp (s : State) (i : Instr) (rest : List Byte) (h : pendingOp s = some (i, rest)) :
    fgFree s = true := ((pendingOp_eq_some s i rest).1 h).1

theorem decode_of_pendingOp (s : State) (i : Instr) (rest : List Byte) (h : pendingOp s = some (i, rest)) :
    decode s.seq.frame = .ok (i, rest) := ((pendingOp_eq_some s i rest).1 h).2

/-- An operation takes effect only at an edge with no Tick phase, no settle wait and no response, and so it finds none
(R93). -/
theorem clockEdge_seq_of_pendingOp (s : State) (i : Instr) (rest : List Byte) (h : pendingOp s = some (i, rest)) :
    (clockEdge s).seq.tickPhase = .idle ∧ (clockEdge s).seq.settle = .idle ∧ (clockEdge s).seq.rsp = [] := by
  obtain ⟨hphase, hsettle, hrsp⟩ := (fgFree_iff s).1 (fgFree_of_pendingOp s i rest h)
  simp [clockEdge_seq, hphase, hsettle, hrsp, settleEmits, SettleCounter.next]

/-! ### The digits (R23, R24) -/

theorem digits_sound (value : Byte) (digit : Digit) :
    DisplayState.sound
      { buffer := value, ones := (digits value).1, tens := (digits value).2, activeDigit := digit } := by
  simp only [DisplayState.sound, digits, BitVec.toNat_ofNat]
  omega

theorem exec_keeps_display (i : Instr) (s t : State) (hs : s.display.sound) (h : exec i s = .next t) :
    t.display.sound := by
  obtain ⟨digit, ht⟩ | ht | ⟨value, ht⟩ := exec_display_cases i s t h <;> rw [ht]
  · exact hs
  · exact digits_sound 0 .ones
  · exact digits_sound value s.display.activeDigit

theorem step_keeps_display (s t : State) (hs : s.display.sound) (h : step s = .next t) : t.display.sound := by
  have hedge : (clockEdge s).display.sound := by
    rw [clockEdge_display]; split <;> exact hs
  exact step_keeps (·.display.sound) s t (digits_sound 0 .ones) hedge
    (fun i _ _ hexec => exec_keeps_display i _ t hedge hexec) h

/-! ### The enables (R28, R213) -/

theorem clockEdge_keeps_pins (s : State) (hs : s.pinsSafe) : (clockEdge s).pinsSafe := by
  obtain ⟨hexcl, hdark, htrace⟩ := hs
  have hpins : (phasePins (phaseAt s) s).exclusive = true ∧
      (phaseAt s = .p1 ∨ phaseAt s = .p2 →
        (phasePins (phaseAt s) s).enOnes = .inactive ∧ (phasePins (phaseAt s) s).enTens = .inactive) := by
    cases hphase : phaseAt s with
    | idle => exact ⟨hexcl, by simp⟩
    | p1 => exact ⟨Pins.dark_exclusive _, fun _ => ⟨rfl, rfl⟩⟩
    | p2 => exact ⟨hexcl, fun _ => hdark (.inl (tickPhase_of_p2 s hphase))⟩
    | p3 =>
      obtain ⟨hones, htens⟩ := hdark (.inr (tickPhase_of_p3 s hphase))
      exact ⟨Pins.light_exclusive _ _ hones htens, by simp⟩
  obtain ⟨hexcl', hdark'⟩ := hpins
  refine ⟨by rwa [clockEdge_pins], by rwa [clockEdge_pins, clockEdge_seq], ?_⟩
  rw [clockEdge_pinTrace, List.forall_mem_append]
  refine ⟨htrace, ?_⟩
  split
  · simp
  · simpa using hexcl'

theorem exec_keeps_pins (i : Instr) (s t : State) (hs : s.pinsSafe) (hphase : s.seq.tickPhase = .idle)
    (h : exec i s = .next t) : t.pinsSafe := by
  obtain ⟨hexcl, -, htrace⟩ := hs
  obtain ⟨-, hphase', -⟩ := exec_seq_cases i s t h
  have hdark : t.seq.tickPhase = .p1 ∨ t.seq.tickPhase = .p2 →
      t.pins.enOnes = .inactive ∧ t.pins.enTens = .inactive := by simp [hphase', hphase]
  obtain ⟨hpins, htrace'⟩ | ⟨hexcl', driven, htrace', hdriven⟩ := exec_pins_cases i s t h
  · exact ⟨by rwa [hpins], hdark, by rwa [htrace']⟩
  · exact ⟨hexcl', hdark, by rw [htrace', List.forall_mem_append]; exact ⟨htrace, hdriven⟩⟩

theorem hardReset_pinsSafe (s : State) (hs : s.pinsSafe) : (hardReset s).pinsSafe := by
  obtain ⟨-, -, htrace⟩ := hs
  have hreset : State.reset.pins.exclusive = true := Pins.dark_exclusive State.reset.pins
  refine ⟨hreset, fun _ => ⟨rfl, rfl⟩, ?_⟩
  simp only [hardReset, State.withEnv_env, List.forall_mem_append]
  exact ⟨htrace, by simpa using hreset⟩

theorem step_keeps_pins (s t : State) (hs : s.pinsSafe) (h : step s = .next t) : t.pinsSafe := by
  have hedge := clockEdge_keeps_pins s hs
  refine step_keeps State.pinsSafe s t (hardReset_pinsSafe s hs) hedge (fun i rest hop hexec => ?_) h
  exact exec_keeps_pins i _ t hedge (clockEdge_seq_of_pendingOp s i rest hop).1 hexec

/-! ### The ring (R32, R70, R139) -/

theorem exec_keeps_log (i : Instr) (s t : State) (hs : s.log.sound) (h : exec i s = .next t) : t.log.sound := by
  obtain ht | ht | ⟨bytes, hfit, ht⟩ | ⟨k, payload, hk, hpop⟩ := exec_log_cases i s t h
  · rwa [ht]
  · obtain ⟨hwf, -, -⟩ := hs
    rw [ht]; exact LogBuffer.sound_empty s.log.ring hwf
  · rw [ht]; exact LogBuffer.sound_pushAll s.log bytes hs hfit
  · exact LogBuffer.sound_popMany k s.log t.log payload hs hk hpop

theorem step_keeps_log (s t : State) (hs : s.log.sound) (h : step s = .next t) : t.log.sound := by
  have hedge : (clockEdge s).log.sound := by rwa [clockEdge_log]
  exact step_keeps (·.log.sound) s t (LogBuffer.sound_empty [] rfl) hedge
    (fun i _ _ hexec => exec_keeps_log i _ t hedge hexec) h

/-! ### The count (R33, R154) -/

theorem satinc_toNat (count max : Byte) :
    (satinc count max).toNat = if count.toNat < max.toNat then count.toNat + 1 else count.toNat := by
  unfold satinc
  split
  · have := max.isLt
    have one : (1 : Byte).toNat = 1 := rfl
    rw [BitVec.toNat_add, one]
    omega
  · rfl

theorem satdec_toNat (count : Byte) : (satdec count).toNat = count.toNat - 1 := by
  unfold satdec
  split
  · rename_i hpos
    have one : (1 : Byte).toNat = 1 := rfl
    have hle : (1 : Byte) ≤ count := BitVec.le_def.2 (by rw [one]; exact hpos)
    rw [BitVec.toNat_sub_of_le hle, one]
  · omega

/-- The second reading keeps the count between the rails. -/
theorem countAfter_le_max (count max : Byte) (l : Lines) (h : count.toNat ≤ max.toNat) :
    (countAfter count max l).toNat ≤ max.toNat := by
  have hup : (if l.a then count else satinc count max).toNat ≤ max.toNat := by
    split
    · exact h
    · rw [satinc_toNat]; split <;> omega
  unfold countAfter
  dsimp only
  split
  · exact hup
  · rw [satdec_toNat]; omega

theorem exec_keeps_enc (i : Instr) (s t : State) (hs : s.enc.sound) (h : exec i s = .next t) : t.enc.sound := by
  obtain ⟨gate, ht⟩ | ⟨max, ht⟩ := exec_enc_cases i s t h <;> rw [ht]
  · exact hs
  · exact Nat.zero_le _

theorem step_keeps_enc (s t : State) (hs : s.enc.sound) (h : step s = .next t) : t.enc.sound := by
  have hedge : (clockEdge s).enc.sound := by
    rw [clockEdge_enc, settledCount]
    split
    · exact countAfter_le_max _ _ _ hs
    · exact hs
  exact step_keeps (·.enc.sound) s t (Nat.zero_le _) hedge (fun i _ _ hexec => exec_keeps_enc i _ t hedge hexec) h

/-! ### The timer (R37, R184) -/

theorem Timer.sound_clear (t : Timer) (h : t.sound) : Timer.sound { t with tickPending := false } :=
  ⟨h.1, fun hp => absurd hp (by simp)⟩

theorem exec_keeps_timer (i : Instr) (s t : State) (hs : s.timer.sound) (h : exec i s = .next t) :
    t.timer.sound := by
  obtain ht | ht | ht := exec_timer_cases i s t h <;> rw [ht]
  · exact hs
  · exact ⟨Nat.zero_le _, fun _ => rfl⟩
  · exact Timer.sound_clear s.timer hs

theorem step_keeps_timer (s t : State) (hs : s.timer.sound) (h : step s = .next t) : t.timer.sound := by
  have hedge : (clockEdge s).timer.sound := by
    have := Timer.edge_sound s.timer hs
    rw [clockEdge_timer]
    split
    · exact Timer.sound_clear _ this
    · exact this
  have hreset : (hardReset s).timer.sound := ⟨Nat.zero_le _, fun hp => absurd hp (by simp [hardReset, State.reset])⟩
  exact step_keeps (·.timer.sound) s t hreset hedge (fun i _ _ hexec => exec_keeps_timer i _ t hedge hexec) h

/-! ### The framing (R93) -/

/-- What the decoder reads is as long as the frame announces, and the rest is what lies behind it (R87). -/
theorem decode_ok_frameLength (bytes : List Byte) (i : Instr) (rest : List Byte) (h : decode bytes = .ok (i, rest)) :
    ∃ n, frameLength bytes = some n ∧ n ≤ bytes.length ∧ rest = bytes.drop n := by
  cases bytes with
  | nil => cases h
  | cons opcode operands =>
    simp only [decode] at h
    simp only [frameLength]
    cases hf : formatOf opcode <;> simp only [hf] at h
    case Z => cases h; exact ⟨1, rfl, by simp, rfl⟩
    case B =>
      cases operands with
      | nil => cases h
      | cons imm8 more => cases h; exact ⟨2, rfl, by simp, rfl⟩
    case V =>
      cases operands with
      | nil => cases h
      | cons len text =>
        dsimp only at h
        split at h
        · cases h; exact ⟨2 + len.toNat, rfl, by simp; omega, by simp [Nat.add_comm 2]⟩
        · cases h
    case L =>
      split at h
      · cases h; exact ⟨5, rfl, by simp, rfl⟩
      · cases h

/-- Where the decoder still waits, the frame it waits for is longer than what is there (R87). -/
theorem decode_error_frameLength (bytes : List Byte) (e : DecodeError) (n : Nat) (h : decode bytes = .error e)
    (hn : frameLength bytes = some n) : bytes.length < n := by
  cases bytes with
  | nil => cases hn
  | cons opcode operands =>
    simp only [decode] at h
    simp only [frameLength] at hn
    cases hf : formatOf opcode <;> simp only [hf] at h hn
    case Z => cases h
    case B =>
      cases hn
      cases operands with
      | nil => simp
      | cons imm8 more => cases h
    case V =>
      cases operands with
      | nil => cases hn
      | cons len text =>
        cases hn
        dsimp only at h
        split at h
        · cases h
        · simp only [List.length_cons]; omega
    case L =>
      cases hn
      match operands, h with
      | [], _ | [_], _ | [_, _], _ | [_, _, _], _ => simp

/-- The length a frame announces does not depend on what comes behind (R87). -/
theorem frameLength_append (bytes more : List Byte) (n : Nat) (h : frameLength bytes = some n) :
    frameLength (bytes ++ more) = some n := by
  cases bytes with
  | nil => cases h
  | cons opcode operands =>
    simp only [frameLength, List.cons_append] at h ⊢
    cases hf : formatOf opcode <;> simp only [hf] at h ⊢
    case V =>
      cases operands with
      | nil => cases h
      | cons len text => exact h
    all_goals exact h

/-- Where the length is not known yet, the byte that tells it still belongs to the frame (R87). -/
theorem length_lt_of_frameLength_none (bytes : List Byte) (b : Byte) (n : Nat) (h : frameLength bytes = none)
    (hn : frameLength (bytes ++ [b]) = some n) : bytes.length < n := by
  cases bytes with
  | nil =>
    simp only [frameLength, List.nil_append] at hn
    cases hf : formatOf b <;> simp [hf] at hn <;> simp [← hn]
  | cons opcode operands =>
    simp only [frameLength, List.cons_append] at h hn
    cases hf : formatOf opcode <;> simp only [hf] at h hn
    case V =>
      cases operands with
      | nil => cases hn; simp; omega
      | cons len text => cases h
    all_goals cases h

/-- The byte that completes a frame is the frame's last: a decoder that lacked it has nothing behind it. -/
theorem decode_snoc_rest (bytes : List Byte) (b : Byte) (e : DecodeError) (i : Instr) (rest : List Byte)
    (hbefore : decode bytes = .error e) (hafter : decode (bytes ++ [b]) = .ok (i, rest)) : rest = [] := by
  obtain ⟨n, hn, -, rfl⟩ := decode_ok_frameLength _ i rest hafter
  have hlt : bytes.length < n := by
    cases hm : frameLength bytes with
    | none => exact length_lt_of_frameLength_none bytes b n hm hn
    | some m =>
      obtain rfl : m = n := by simpa [frameLength_append bytes [b] m hm] using hn
      exact decode_error_frameLength bytes e m hbefore hm
  simpa using hlt

/-- A command byte comes in only where no complete frame is left waiting. -/
theorem decode_frameLeft_of_commandMoves (s : State) (hs : s.seq.framed) (h : commandMoves s = true) :
    ∃ e, decode (frameLeft s) = .error e := by
  have hfree : fgFree s = true := by
    simp only [commandMoves, cmdReady, Bool.and_eq_true] at h
    obtain ⟨⟨-, hfree⟩, -⟩ := h
    exact hfree
  cases hop : pendingOp s with
  | some op =>
    obtain ⟨i, rest⟩ := op
    rw [frameLeft_some s i rest hop, hs i rest (decode_of_pendingOp s i rest hop)]
    exact ⟨_, rfl⟩
  | none =>
    rw [frameLeft_none s hop]
    cases hd : decode s.seq.frame with
    | error e => exact ⟨e, rfl⟩
    | ok op => exact absurd ((pendingOp_eq_some s op.1 op.2).2 ⟨hfree, hd⟩) (by simp [hop])

theorem clockEdge_keeps_framed (s : State) (hs : s.seq.framed) : (clockEdge s).seq.framed := by
  intro i rest hd
  rw [clockEdge_seq] at hd
  dsimp only at hd
  by_cases hmoves : commandMoves s = true
  · obtain ⟨e, he⟩ := decode_frameLeft_of_commandMoves s hs hmoves
    rw [if_pos hmoves] at hd
    cases hcmd : s.env.cmd with
    | nil => simp [hcmd, he] at hd
    | cons b later => exact decode_snoc_rest _ b e i rest he (by simpa [hcmd] using hd)
  · rw [if_neg hmoves, List.append_nil] at hd
    cases hop : pendingOp s with
    | some op =>
      obtain ⟨i', rest'⟩ := op
      rw [frameLeft_some s i' rest' hop, hs i' rest' (decode_of_pendingOp s i' rest' hop)] at hd
      simp [decode] at hd
    | none => exact hs i rest (by rwa [frameLeft_none s hop] at hd)

theorem step_keeps_framed (s t : State) (hs : s.seq.framed) (h : step s = .next t) : t.seq.framed := by
  have hedge := clockEdge_keeps_framed s hs
  refine step_keeps (·.seq.framed) s t (fun i rest hd => absurd hd (by simp [hardReset, State.reset, decode])) hedge
    (fun i _ _ hexec => ?_) h
  obtain ⟨hframe, -, -⟩ := exec_seq_cases i _ t hexec
  rwa [Sequencer.framed, hframe]

/-! ### The settle wait (R39(c), R153) -/

theorem clockEdge_keeps_wait (s : State) (hs : s.waitSound) : (clockEdge s).waitSound := by
  intro left hleft
  rw [clockEdge_seq] at hleft ⊢
  rw [clockEdge_enc]
  cases hsettle : s.seq.settle with
  | idle => simp [hsettle, SettleCounter.next] at hleft
  | counting n =>
    obtain ⟨hbound, hgate, hrsp⟩ := hs n hsettle
    cases n with
    | zero => simp [hsettle, SettleCounter.next] at hleft
    | succ n =>
      obtain rfl : n = left := by simpa [hsettle, SettleCounter.next] using hleft
      exact ⟨by omega, hgate, by simp [hrsp, settleEmits, hsettle]⟩

theorem step_keeps_wait (s t : State) (hs : s.waitSound) (h : step s = .next t) : t.waitSound := by
  refine step_keeps State.waitSound s t (fun left hleft => absurd hleft (by simp [hardReset, State.reset]))
    (clockEdge_keeps_wait s hs) (fun i rest hop hexec left hleft => ?_) h
  obtain ⟨-, hsettle, hrsp⟩ := clockEdge_seq_of_pendingOp s i rest hop
  obtain ⟨-, -, hidle | ⟨hbegun, hgate, hnone⟩⟩ := exec_seq_cases i _ t hexec
  · simp [hidle, hsettle] at hleft
  · obtain rfl : Config.settleCycles = left := by simpa [hbegun] using hleft
    exact ⟨Nat.le_refl _, hgate, hnone.trans hrsp⟩

/-! ## The whole block -/

/-- A step completes wherever the log buffer is sound: it is the only part an operation can stop on (R70, R180). -/
theorem step_completes (s : State) (h : s.log.sound) : ∃ t, step s = .next t := by
  obtain ⟨-, hs⟩ | ⟨-, i, rest, -, hs⟩ | ⟨-, -, hs⟩ := step_cases s
  · exact ⟨_, hs⟩
  · rw [hs]; exact exec_completes i _ (by rwa [clockEdge_log])
  · exact ⟨_, hs⟩

theorem step_keeps_inv (s t : State) (hs : s.Inv) (h : step s = .next t) : t.Inv where
  display := step_keeps_display s t hs.display h
  pins := step_keeps_pins s t hs.pins h
  log := step_keeps_log s t hs.log h
  enc := step_keeps_enc s t hs.enc h
  timer := step_keeps_timer s t hs.timer h
  seq := step_keeps_framed s t hs.seq h
  wait := step_keeps_wait s t hs.wait h

/-- Settles O48: a sound log buffer lets every step complete, and every step keeps each of the seven parts. -/
theorem blockNeverStops : Obligations.BlockNeverStops := by
  intro s hs
  obtain ⟨t, ht⟩ := step_completes s hs.log
  exact ⟨t, ht, step_keeps_inv s t hs ht⟩

end Sys2Proof.Machine
end

section
/-! PROOF. A TICK commutes with every operation of the log buffer and the encoder (00_scope.md R9): a TICK touches the
display, the pins, the request and the pin trace, and those operations neither read nor write any of them. -/

namespace Sys2Proof.Machine

/-! ## Outcomes in sequence -/

/-- What follows an outcome: the next operation on the next state, and nothing after a stop. -/
def andThen (r : Result) (f : State → Result) : Result :=
  match r with
  | .next t => f t
  | .fault e => .fault e
  | .refused e => .refused e

@[simp] theorem andThen_next (t : State) (f : State → Result) : andThen (.next t) f = f t := rfl
@[simp] theorem andThen_fault (e : Fault) (f : State → Result) : andThen (.fault e) f = .fault e := rfl

theorem execAll_cons (i : Instr) (is : List Instr) (s : State) :
    execAll (i :: is) s = andThen (perform i s) (execAll is) := by
  unfold execAll andThen
  cases perform i s <;> rfl

theorem execAll_singleton (i : Instr) (s : State) : execAll [i] s = perform i s := by
  rw [execAll_cons]
  cases perform i s <;> rfl

theorem perform_tick (s : State) : perform .tick s = .next (ticked s) := rfl

theorem execAll_tick : execAll [.tick] = .next ∘ ticked := funext fun t => execAll_singleton .tick t

/-! ## TICK and the shared operations -/

@[simp] theorem ticked_withLog (s : State) (l : LogBuffer) : (ticked s).withLog l = ticked (s.withLog l) := rfl
@[simp] theorem ticked_withEnc (s : State) (e : EncoderState) : (ticked s).withEnc e = ticked (s.withEnc e) := rfl
@[simp] theorem ticked_withSeq (s : State) (q : Sequencer) : (ticked s).withSeq q = ticked (s.withSeq q) := rfl
@[simp] theorem emit_ticked (bytes : List Byte) (s : State) : emit bytes (ticked s) = ticked (emit bytes s) := rfl
@[simp] theorem emitPad_ticked (n : Nat) (s : State) : emitPad n (ticked s) = ticked (emitPad n s) := rfl
@[simp] theorem linesNow_ticked (s : State) : linesNow (ticked s) = linesNow s := rfl
@[simp] theorem linesTaken_ticked (s : State) : linesTaken (ticked s) = ticked (linesTaken s) := by
  have hsame : (ticked s).env.lines = s.env.lines := rfl
  unfold linesTaken
  rw [hsame]
  split <;> rfl
@[simp] theorem answerCount_ticked (s : State) : answerCount (ticked s) = ticked (answerCount s) := rfl
@[simp] theorem beginWait_ticked (s : State) : beginWait (ticked s) = ticked (beginWait s) := rfl
@[simp] theorem endWait_ticked (s : State) : endWait (ticked s) = ticked (endWait s) := by simp [endWait]
@[simp] theorem completeWait_ticked (s : State) : completeWait (ticked s) = ticked (completeWait s) := by
  unfold completeWait
  rw [ticked_seq]
  split
  · rfl
  · exact endWait_ticked s

/-! ## TICK and the operations of the log buffer and the encoder -/

theorem execLogAppend_ticked (text : List Byte) (s : State) :
    execLogAppend text (ticked s) = andThen (execLogAppend text s) (.next ∘ ticked) := by
  unfold execLogAppend
  by_cases h : dropped s.log.level text = true <;> simp [h]

/-- The Drain's fault included: both orders stop at the same byte. -/
theorem drain_ticked (N bias : Nat) (s : State) :
    drain N bias (ticked s) = andThen (drain N bias s) (.next ∘ ticked) := by
  simp only [drain, ticked_log, ticked_withLog, emit_ticked, emitPad_ticked]
  cases s.log.popMany (payloadCount N s.log.level) <;> rfl

theorem execEncSample_ticked (s : State) :
    execEncSample (ticked s) = andThen (execEncSample s) (.next ∘ ticked) := by
  simp only [execEncSample, linesNow_ticked, linesTaken_ticked, ticked_enc, ticked_withEnc, andThen_next,
    Function.comp_apply]
  split
  · split <;> rfl
  · split <;> rfl

/-- ENC.SAMPLE as a whole commutes with a TICK, its settle wait and second reading too. -/
theorem perform_encSample_ticked (s : State) :
    perform .encSample (ticked s) = andThen (perform .encSample s) (.next ∘ ticked) := by
  have h : exec .encSample (ticked s) = andThen (exec .encSample s) (.next ∘ ticked) := execEncSample_ticked s
  unfold perform
  rw [h]
  cases exec .encSample s <;> simp [andThen]

/-- Settles O39: operation by operation, performing it on the ticked state is ticking what it leaves. -/
theorem tickCommutesWithLogAndEncoder : Obligations.TickCommutesWithLogAndEncoder := by
  intro i s hi
  have hcommutes : perform i (ticked s) = andThen (perform i s) (.next ∘ ticked) := by
    obtain rfl | rfl | ⟨text, rfl⟩ | ⟨max, rfl⟩ | rfl := hi
    · rfl
    · rw [perform_eq_exec _ _ (by simp), perform_eq_exec _ _ (by simp)]
      exact drain_ticked Config.reportSize Config.drainPrefixBias s
    · rw [perform_eq_exec _ _ (by simp), perform_eq_exec _ _ (by simp)]
      exact execLogAppend_ticked text s
    · rfl
    · exact perform_encSample_ticked s
  calc execAll [i, .tick] s
      = andThen (perform i s) (execAll [.tick]) := execAll_cons i _ s
    _ = andThen (perform i s) (.next ∘ ticked) := by rw [execAll_tick]
    _ = perform i (ticked s) := hcommutes.symm
    _ = execAll [i] (ticked s) := (execAll_singleton i _).symm
    _ = execAll [.tick, i] s := by rw [execAll_cons .tick, perform_tick, andThen_next]

end Sys2Proof.Machine
end

section
/-! PROOF. The state after reset, the invariant part by part as the statements of 10_state.md ask for it (R23 to R37, R41),
the response port at one edge (R42, R90), and the settle wait over its edges (R39(c), R153). -/

namespace Sys2Proof.Machine

/-! ## The state after reset (R41, R211) -/

/-- Settles O41: `State.reset` is the reset column of R41 field by field, and nothing in it holds FG off. -/
theorem stateAfterReset : Obligations.StateAfterReset :=
  ⟨rfl, rfl, rfl, rfl, rfl, rfl, rfl, rfl, (fgFree_iff State.reset).2 ⟨rfl, rfl, rfl⟩⟩

theorem reset_inv : State.reset.Inv where
  display := digits_sound 0 .ones
  pins := ⟨Pins.dark_exclusive State.reset.pins, fun _ => ⟨rfl, rfl⟩, by simp [State.reset]⟩
  log := LogBuffer.sound_empty [] rfl
  enc := Nat.le_refl 0
  timer := ⟨Nat.zero_le _, fun hpending => absurd hpending (by simp [State.reset])⟩
  seq := fun _ _ hdecode => absurd hdecode (by simp [State.reset, decode])
  wait := fun _ hsettle => absurd hsettle (by simp [State.reset])

/-- Settles O42: the digits are those of 0, the pins dark, the buffer empty, every count 0, and nothing is in progress. -/
theorem resetSatisfiesTheInvariant : Obligations.ResetSatisfiesTheInvariant := reset_inv

/-! ## Every step keeps the invariant's parts -/

/-- Settles O44: the edge drives only dark pins, or lights one digit of pins that P1 and P2 kept dark, and no operation
drives both enables active. -/
theorem everyStepKeepsEnablesExclusive : Obligations.EveryStepKeepsEnablesExclusive :=
  ⟨reset_inv.pins, step_keeps_pins⟩

/-- Settles O45: only the log operations write the buffer, and each of their loops keeps the queue it stands for. -/
theorem everyStepKeepsTheRing : Obligations.EveryStepKeepsTheRing := step_keeps_log

/-- Settles O46: the four parts are kept one by one, each from its own premise alone. -/
theorem everyStepKeepsCountTimerAndFraming : Obligations.EveryStepKeepsCountTimerAndFraming := fun s t h =>
  ⟨(step_keeps_enc s t · h), (step_keeps_timer s t · h), (step_keeps_framed s t · h), (step_keeps_wait s t · h)⟩

/-- Digits that are remainders modulo 10 are decimal digits (R23, R24). -/
theorem DisplayState.le_nine_of_sound (d : DisplayState) (h : d.sound) : d.ones.toNat ≤ 9 ∧ d.tens.toNat ≤ 9 := by
  obtain ⟨hones, htens⟩ := h
  omega

/-- Settles O43: a step keeps the digits those of `buffer`, and such digits are at most 9. -/
theorem everyStepKeepsTheDigits : Obligations.EveryStepKeepsTheDigits := by
  intro s t hs h
  have ht := step_keeps_display s t hs h
  exact ⟨ht, DisplayState.le_nine_of_sound t.display ht⟩

/-! ## The electrical level of an enable pin (R27, R28) -/

theorem Enable.level_eq_iff (e : Enable) : e.level = Config.enActiveLevel ↔ e = .active := by
  cases e <;> simp [Enable.level]

theorem Pins.exclusive_iff (p : Pins) : p.exclusive = true ↔ ¬(p.enOnes = .active ∧ p.enTens = .active) := by
  simp [Pins.exclusive, imp_iff_not_or]

/-- Settles O20: the level tells active from inactive, whatever the active level is. -/
theorem enablePinsNeverBothAtActiveLevel : Obligations.EnablePinsNeverBothAtActiveLevel := by
  refine ⟨Enable.level_eq_iff, fun p hp => ?_⟩
  rw [Enable.level_eq_iff, Enable.level_eq_iff]
  exact (Pins.exclusive_iff p).1 hp

/-! ## An edge at which FG is held off (R93) -/

theorem pendingOp_of_held (s : State) (h : fgFree s = false) : pendingOp s = none := by
  simp [pendingOp, h]

theorem commandMoves_of_held (s : State) (h : fgFree s = false) : commandMoves s = false := by
  simp [commandMoves, cmdReady, h]

/-- With no operation to take effect, an edge without reset is the clock edge alone. -/
theorem step_of_held (s : State) (hrst : (edgeIn s).rst = false) (h : fgFree s = false) :
    step s = .next (clockEdge s) := by
  simp [step, hrst, pendingOp_of_held s h]

/-! ## The response port at one edge (R42, R90) -/

theorem fgFree_eq_false_of_rsp_cons (s : State) (b : Byte) (bytes : List Byte) (h : s.seq.rsp = b :: bytes) :
    fgFree s = false := by
  simp [fgFree, h]

theorem rspValid_of_rsp_cons (s : State) (b : Byte) (bytes : List Byte) (hrst : (edgeIn s).rst = false)
    (h : s.seq.rsp = b :: bytes) : rspValid s = true := by
  simp [rspValid, hrst, h]

/-- Settles O11: a waiting byte holds FG off, so the step is the clock edge, which moves it exactly on the handshake; and
away from the end of a settle wait the edge gives the shifter no byte. -/
theorem responseBytesMoveInOrder : Obligations.ResponseBytesMoveInOrder := by
  intro s b bytes hrst hsettle hrsp
  have hvalid := rspValid_of_rsp_cons s b bytes hrst hrsp
  have hmoves : responseMoves s = (edgeIn s).rspReady := by simp [responseMoves, hvalid]
  have hemits : settleEmits s = [] := if_neg hsettle
  have hstep := step_of_held s hrst (fgFree_eq_false_of_rsp_cons s b bytes hrsp)
  refine ⟨hvalid, by simp [rspData, hrsp], clockEdge s, hstep, ?_⟩
  rw [clockEdge_seq, clockEdge_taken, hmoves, hemits, hrsp]
  split <;> simp_all

/-! ## Several edges -/

theorem steps_succ_of_next (n : Nat) (s t : State) (h : step s = .next t) : steps (n + 1) s = steps n t := by
  simp [steps, h]

theorem steps_add_of_next (m n : Nat) (s t : State) (h : steps m s = .next t) : steps (m + n) s = steps n t := by
  induction m generalizing s with
  | zero => cases h; rw [Nat.zero_add]
  | succ m ih =>
    rw [Nat.add_right_comm]
    cases hs : step s with
    | next u =>
      rw [steps_succ_of_next _ s u hs] at h ⊢
      exact ih u h
    | fault f => simp [steps, hs] at h
    | refused r => simp [steps, hs] at h

/-! ## The settle wait over its edges (R39(c), R153, R223) -/

/-- A Sample is in its settle wait with `n` clocks to go, and no response waits. -/
structure State.Waiting (n : Nat) (s : State) : Prop where
  settle : s.seq.settle = .counting n
  rsp : s.seq.rsp = []

/-- What no edge of a settle wait touches, the one of the second reading included: the log and the command bytes. -/
structure State.SameLogAndCommand (s t : State) : Prop where
  log : t.log = s.log
  frame : t.seq.frame = s.seq.frame
  cmd : t.env.cmd = s.env.cmd

/-- What the settle counter's own clocks leave as well: the encoder and the answers of the lines. -/
structure State.SameThroughWait (s t : State) : Prop extends State.SameLogAndCommand s t where
  enc : t.enc = s.enc
  lines : t.env.lines = s.env.lines

theorem State.SameLogAndCommand.trans {s t u : State} (hst : s.SameLogAndCommand t) (htu : t.SameLogAndCommand u) :
    s.SameLogAndCommand u :=
  ⟨htu.log.trans hst.log, htu.frame.trans hst.frame, htu.cmd.trans hst.cmd⟩

theorem State.SameThroughWait.refl (s : State) : s.SameThroughWait s := ⟨⟨rfl, rfl, rfl⟩, rfl, rfl⟩

theorem State.SameThroughWait.trans {s t u : State} (hst : s.SameThroughWait t) (htu : t.SameThroughWait u) :
    s.SameThroughWait u :=
  ⟨hst.toSameLogAndCommand.trans htu.toSameLogAndCommand, htu.enc.trans hst.enc, htu.lines.trans hst.lines⟩

theorem fgFree_eq_false_of_waiting (n : Nat) (s : State) (h : s.Waiting n) : fgFree s = false := by
  simp [fgFree, h.settle]

theorem clockEdge_seq_of_waiting (n : Nat) (s : State) (h : s.Waiting n) :
    (clockEdge s).seq =
      { frame := s.seq.frame, tickPhase := phaseAt s, settle := (SettleCounter.counting n).next,
        rsp := settleEmits s } := by
  have hheld := fgFree_eq_false_of_waiting n s h
  simp [clockEdge_seq, frameLeft_none s (pendingOp_of_held s hheld), commandMoves_of_held s hheld, h.settle, h.rsp]

theorem clockEdge_sameLogAndCommand_of_waiting (n : Nat) (s : State) (h : s.Waiting n) :
    s.SameLogAndCommand (clockEdge s) where
  log := clockEdge_log s
  frame := by rw [clockEdge_seq_of_waiting n s h]
  cmd := by simp [clockEdge_cmd, commandMoves_of_held s (fgFree_eq_false_of_waiting n s h)]

theorem settle_ne_of_waiting_succ (n : Nat) (s : State) (h : s.Waiting (n + 1)) : s.seq.settle ≠ .counting 0 := by
  simp [h.settle]

/-- One of the counter's clocks, a Tick phase or not: one less to go. -/
theorem clockEdge_waiting (n : Nat) (s : State) (h : s.Waiting (n + 1)) : (clockEdge s).Waiting n := by
  have hne := settle_ne_of_waiting_succ n s h
  constructor <;> simp [clockEdge_seq_of_waiting _ s h, SettleCounter.next, settleEmits, hne]

theorem clockEdge_sameThroughWait (n : Nat) (s : State) (h : s.Waiting (n + 1)) :
    s.SameThroughWait (clockEdge s) where
  toSameLogAndCommand := clockEdge_sameLogAndCommand_of_waiting _ s h
  enc := clockEdge_enc_of_ne s (settle_ne_of_waiting_succ n s h)
  lines := clockEdge_lines_of_ne s (settle_ne_of_waiting_succ n s h)

theorem edgeIn_of_cons (s : State) (e : EdgeIn) (later : List EdgeIn) (h : s.env.edges = e :: later) :
    edgeIn s = e := by
  simp [edgeIn, h]

/-- Each scripted edge without reset is one clock of the settle counter, by induction on those edges. -/
theorem steps_of_waiting (coming later : List EdgeIn) (n : Nat) (s : State) (hwait : s.Waiting (n + coming.length))
    (hedges : s.env.edges = coming ++ later) (hrst : ∀ e ∈ coming, e.rst = false) :
    ∃ t, steps coming.length s = .next t ∧ t.Waiting n ∧ s.SameThroughWait t ∧ t.env.edges = later := by
  induction coming generalizing s with
  | nil => exact ⟨s, rfl, hwait, .refl s, hedges⟩
  | cons e coming ih =>
    obtain ⟨hfirst, hrest⟩ := List.forall_mem_cons.1 hrst
    have hstep : step s = .next (clockEdge s) :=
      step_of_held s (by rwa [edgeIn_of_cons s e _ hedges]) (fgFree_eq_false_of_waiting _ s hwait)
    have hedges' : (clockEdge s).env.edges = coming ++ later := by rw [clockEdge_edges, hedges]; rfl
    obtain ⟨t, hsteps, hwait', hsame, hlater⟩ := ih (clockEdge s) (clockEdge_waiting _ s hwait) hedges' hrest
    exact ⟨t, (steps_succ_of_next _ s _ hstep).trans hsteps, hwait',
      (clockEdge_sameThroughWait _ s hwait).trans hsame, hlater⟩

/-- The two counting steps of R153 as arithmetic: line A low counts up to the rail, then line B low counts down to 0. -/
theorem countAfter_toNat (count max : Byte) (l : Lines) :
    (countAfter count max l).toNat =
      let up := if l.a = false ∧ count.toNat < max.toNat then count.toNat + 1 else count.toNat
      if l.b = false ∧ 0 < up then up - 1 else up := by
  have hup : (if l.a then count else satinc count max).toNat =
      if l.a = false ∧ count.toNat < max.toNat then count.toNat + 1 else count.toNat := by
    cases l.a <;> simp [satinc_toNat]
  simp only [countAfter, ← hup]
  generalize (if l.a then count else satinc count max) = stepA
  cases l.b
  · have hdown : (satdec stepA).toNat = if 0 < stepA.toNat then stepA.toNat - 1 else stepA.toNat := by
      rw [satdec_toNat]; split <;> omega
    simpa using hdown
  · simp

theorem secondReading_of_cons (s : State) (l : Lines) (answers : List Lines) (h : s.env.lines = l :: answers) :
    secondReading s = l := by
  simp [secondReading, linesNow, h]

/-- The edge after the counter's clocks: the second reading, the count, the answer, and the wait is over. -/
theorem clockEdge_of_waiting_zero (s : State) (l : Lines) (answers : List Lines) (h : s.Waiting 0)
    (hlines : s.env.lines = l :: answers) :
    (clockEdge s).seq.settle = .idle ∧
    (clockEdge s).enc = { s.enc with count := countAfter s.enc.count s.enc.max l } ∧
    (clockEdge s).seq.rsp = [(clockEdge s).enc.count] ∧ (clockEdge s).env.lines = answers := by
  have hcount : settledCount s = countAfter s.enc.count s.enc.max l := by
    rw [settledCount, if_pos h.settle, secondReading_of_cons s l answers hlines]
  refine ⟨?_, ?_, ?_, ?_⟩
  · rw [clockEdge_seq_of_waiting 0 s h]; rfl
  · rw [clockEdge_enc, hcount]
  · rw [clockEdge_seq_of_waiting 0 s h, clockEdge_enc]
    exact if_pos h.settle
  · rw [clockEdge_lines_of_eq s h.settle, hlines]; rfl

/-- After `m` of the counter's clocks, for any `m` up to all of them. -/
theorem steps_of_waiting_le (m n : Nat) (s : State) (coming later : List EdgeIn) (hm : m ≤ n) (hwait : s.Waiting n)
    (hedges : s.env.edges = coming ++ later) (hlen : coming.length = n + 1) (hrst : ∀ e ∈ coming, e.rst = false) :
    ∃ t, steps m s = .next t ∧ t.Waiting (n - m) ∧ s.SameThroughWait t ∧ t.env.edges = coming.drop m ++ later := by
  have htake : (coming.take m).length = m := by rw [List.length_take]; omega
  have hwait' : s.Waiting (n - m + (coming.take m).length) := by rwa [htake, Nat.sub_add_cancel hm]
  have hedges' : s.env.edges = coming.take m ++ (coming.drop m ++ later) := by
    rw [← List.append_assoc, List.take_append_drop, hedges]
  have := steps_of_waiting _ _ (n - m) s hwait' hedges' fun e he => hrst e (List.mem_of_mem_take he)
  rwa [htake] at this

/-- Settles O28: the counter's clocks by induction on the edges, then the one edge of the second reading. -/
theorem settleWaitThenSecondReading : Obligations.SettleWaitThenSecondReading := by
  intro n s coming later l answers hsettle hrsp hedges hlen hrst hlines
  have hwait : s.Waiting n := ⟨hsettle, hrsp⟩
  constructor
  · intro m hm
    obtain ⟨t, hsteps, hwait', hsame, -⟩ := steps_of_waiting_le m n s coming later hm hwait hedges hlen hrst
    exact ⟨t, hsteps, hwait'.settle, hsame.enc, hwait'.rsp, hsame.lines⟩
  · obtain ⟨u, hsteps, hwait', hsame, hedges'⟩ :=
      steps_of_waiting_le n n s coming later (Nat.le_refl n) hwait hedges hlen hrst
    rw [Nat.sub_self] at hwait'
    have hlast : edgeIn u = coming[n] :=
      edgeIn_of_cons u _ (coming.drop (n + 1) ++ later) (by rw [hedges', List.drop_eq_getElem_cons]; rfl)
    have hstep : step u = .next (clockEdge u) :=
      step_of_held u (by rw [hlast]; exact hrst _ (List.getElem_mem _)) (fgFree_eq_false_of_waiting 0 u hwait')
    obtain ⟨hidle, henc, hanswer, hanswers⟩ :=
      clockEdge_of_waiting_zero u l answers hwait' (hsame.lines.trans hlines)
    have hend := hsame.toSameLogAndCommand.trans (clockEdge_sameLogAndCommand_of_waiting 0 u hwait')
    rw [hsame.enc] at henc
    refine ⟨clockEdge u, ?_, hidle, ?_, by rw [henc], by rw [henc], hanswer, hanswers, hend.log, hend.frame, hend.cmd⟩
    · rw [steps_add_of_next n 1 s u hsteps, steps_succ_of_next 0 u _ hstep]; rfl
    · rw [henc]; exact countAfter_toNat s.enc.count s.enc.max l

end Sys2Proof.Machine
end

section
/-! PROOF. The log buffer as memory and the frames of the three sub-blocks (20_memory.md): the one fault of LOG.DRAIN (R70),
and that no operation of a sub-block reaches the state of another (R67, R156). -/

namespace Sys2Proof.Machine

/-! ## The fault of LOG.DRAIN (R70) -/

/-- LOG.DRAIN's loop stops early exactly when one of the positions it would read holds no value. -/
theorem LogBuffer.popMany_error_iff (k : Nat) (l : LogBuffer) (hk : k ≤ l.level.toNat) :
    (∃ a, l.popMany k = .error a) ↔ ∃ j < k, l.ring.read ((l.startIx.toNat + j) % 256) = none := by
  obtain ⟨-, herror⟩ := LogBuffer.popMany_total k l
  constructor
  · rintro ⟨a, ha⟩
    obtain ⟨j, hj, rfl, hnone⟩ := herror a ha
    exact ⟨j, hj, hnone⟩
  · rintro ⟨j, hj, hnone⟩
    cases hpop : l.popMany k with
    | error a => exact ⟨a, rfl⟩
    | ok p =>
      obtain ⟨hlen, hread, -⟩ := LogBuffer.popMany_ok k l p.2 p.1 hk hpop
      have hshort : p.1.length ≤ j := List.getElem?_eq_none_iff.1 ((hread j hj).symm.trans hnone)
      omega

/-- LOG.DRAIN's faults are those of its loop. -/
theorem exec_logDrain_fault_iff (s : State) (f : Fault) :
    exec .logDrain s = .fault f ↔
      ∃ a, s.log.popMany (payloadCount Config.reportSize s.log.level) = .error a ∧ f = .ringUnwritten a := by
  have hexec : exec .logDrain s = drain Config.reportSize Config.drainPrefixBias s := rfl
  rw [hexec]
  obtain ⟨payload, log, hpop, hnext⟩ | ⟨a, hpop, hfault⟩ := drain_cases Config.reportSize Config.drainPrefixBias s
  · simp [hnext, hpop]
  · simp [hfault, hpop, eq_comm]

/-- Settles O24: the Drain faults exactly when its loop stops early, and the loop names the position it stopped at. -/
theorem drainFaultsExactlyOnUnwrittenByte : Obligations.DrainFaultsExactlyOnUnwrittenByte := by
  intro s
  have hle := payloadCount_le_level Config.reportSize s.log.level
  constructor
  · calc (∃ f, exec .logDrain s = .fault f)
        ↔ ∃ a, s.log.popMany (payloadCount Config.reportSize s.log.level) = .error a := by
          simp only [exec_logDrain_fault_iff]
          exact ⟨fun ⟨_, a, ha, _⟩ => ⟨a, ha⟩, fun ⟨a, ha⟩ => ⟨_, a, ha, rfl⟩⟩
      _ ↔ _ := LogBuffer.popMany_error_iff _ s.log hle
  · intro a h
    obtain ⟨a', ha', hname⟩ := (exec_logDrain_fault_iff s _).1 h
    obtain rfl : a = a' := Fault.ringUnwritten.inj hname
    obtain ⟨-, -, -, hnone⟩ := (LogBuffer.popMany_total _ s.log).2 a ha'
    exact hnone

/-! ## The frames of the sub-blocks (R67, R156) -/

/-- What a log operation leaves alone. -/
theorem exec_logOperation_frame (i : Instr) (s t : State) (h : exec i s = .next t)
    (hi : i = .logInit ∨ i = .logDrain ∨ ∃ text, i = .logAppend text) :
    t.display = s.display ∧ t.pins = s.pins ∧ t.enc = s.enc ∧ t.timer = s.timer := by
  obtain rfl | rfl | ⟨text, rfl⟩ := hi
  · cases h; exact ⟨rfl, rfl, rfl, rfl⟩
  · obtain ⟨_, _, _, _, -, rfl⟩ := exec_logDrain_next s t h
    exact ⟨rfl, rfl, rfl, rfl⟩
  · obtain rfl | ⟨-, rfl⟩ := exec_logAppend_next text s t h <;> exact ⟨rfl, rfl, rfl, rfl⟩

/-- What an encoder operation leaves alone. -/
theorem exec_encOperation_frame (i : Instr) (s t : State) (h : exec i s = .next t)
    (hi : (∃ max, i = .encInit max) ∨ i = .encSample) :
    t.display = s.display ∧ t.pins = s.pins ∧ t.log = s.log ∧ t.timer = s.timer := by
  obtain ⟨max, rfl⟩ | rfl := hi
  · cases h; exact ⟨rfl, rfl, rfl, rfl⟩
  · obtain ⟨gate, rfl⟩ | rfl := exec_encSample_next s t h <;>
      exact ⟨linesTaken_display s, linesTaken_pins s, linesTaken_log s, linesTaken_timer s⟩

/-- What an operation of the multiplexer leaves alone. -/
theorem exec_muxOperation_frame (i : Instr) (s t : State) (h : exec i s = .next t)
    (hi : i = .muxInit ∨ (∃ value, i = .muxSet value) ∨ i = .tick) :
    t.log = s.log ∧ t.enc = s.enc ∧ t.seq = s.seq := by
  obtain rfl | ⟨value, rfl⟩ | rfl := hi
  · cases h; exact ⟨rfl, rfl, rfl⟩
  · cases h; exact ⟨rfl, rfl, rfl⟩
  · obtain rfl : ticked s = t := Host.Outcome.next.inj ((exec_tick s).symm.trans h)
    exact ⟨ticked_log s, ticked_enc s, ticked_seq s⟩

/-- Settles O40: the frames of the three sub-blocks together. -/
theorem subBlocksAreDisjoint : Obligations.SubBlocksAreDisjoint := fun i s t h =>
  ⟨exec_logOperation_frame i s t h, exec_encOperation_frame i s t h, exec_muxOperation_frame i s t h⟩

end Sys2Proof.Machine
end

section
/-! PROOF. The frame decoder and the encoder (30_encoding.md): they are inverse to each other on the well-formed frames
(R81 to R88), the decoder waits for the whole frame (R87), and no opcode byte is without a frame (R88). -/

namespace Sys2Proof

/-! ## The format of an opcode (R82) -/

theorem formatOf_eq_V_iff (opcode : Byte) : formatOf opcode = .V ↔ opcode = 0x11 := by
  unfold formatOf; split_ifs <;> simp_all

theorem formatOf_eq_B_iff (opcode : Byte) : formatOf opcode = .B ↔ opcode = 0x21 ∨ opcode = 0x30 := by
  unfold formatOf; split_ifs <;> simp_all

theorem formatOf_eq_L_iff (opcode : Byte) : formatOf opcode = .L ↔ opcode = 0x81 := by
  unfold formatOf; split_ifs <;> simp_all

theorem formatOf_eq_Z_iff (opcode : Byte) :
    formatOf opcode = .Z ↔ opcode ≠ 0x11 ∧ opcode ≠ 0x21 ∧ opcode ≠ 0x30 ∧ opcode ≠ 0x81 := by
  unfold formatOf; split_ifs <;> simp_all

theorem wellFormed_unassigned_iff (opcode : Byte) :
    (Instr.unassigned opcode).wellFormed = true ↔ opcode ∉ assignedOpcodes := by
  simp [Instr.wellFormed]

/-! ## Decoding an encoding -/

theorem decode_logAppend_cons (len : Byte) (data : List Byte) :
    decode (0x11 :: len :: data) =
      if len.toNat ≤ data.length then .ok (.logAppend (data.take len.toNat), data.drop len.toNat)
      else .error (.incomplete 0x11) := rfl

/-- A LOG.APPEND frame decodes to its text: `LEN` is the number of its bytes, as long as one byte can hold it (R86). -/
theorem decode_encode_logAppend (text rest : List Byte) (h : text.length ≤ 255) :
    decode (encode (.logAppend text) ++ rest) = .ok (.logAppend text, rest) := by
  have hlen : (BitVec.ofNat 8 text.length).toNat = text.length := by rw [BitVec.toNat_ofNat]; omega
  rw [encode, List.cons_append, List.cons_append, decode_logAppend_cons, hlen, if_pos (by simp), List.take_left,
    List.drop_left]

theorem decode_encode_unassigned (opcode : Byte) (rest : List Byte)
    (h : (Instr.unassigned opcode).wellFormed = true) :
    decode (encode (.unassigned opcode) ++ rest) = .ok (.unassigned opcode, rest) := by
  simp [encode, decode, formatOf_unassigned opcode h, decodeZ_unassigned opcode h]

/-- Settles O1: frame by frame; that the operation is well formed matters to the text's length and the unassigned opcodes
only. -/
theorem decodeInvertsEncode : Obligations.DecodeInvertsEncode := by
  intro i rest hwf hframe
  cases i with
  | logAppend text => exact decode_encode_logAppend text rest (of_decide_eq_true hwf)
  | unassigned opcode => exact decode_encode_unassigned opcode rest hwf
  | tick => cases hframe
  | logDrain | logInit | muxInit | muxSet | encInit | encSample | ledSet => rfl

/-! ## What the decoder reads -/

/-- The bytes are exactly one frame, that of a well-formed operation. -/
structure IsFrameOf (bytes : List Byte) (i : Instr) : Prop where
  encoding : bytes = encode i
  wellFormed : i.wellFormed = true
  isFrame : i.isFrame = true

theorem decodeZ_isFrameOf (opcode : Byte) (h : formatOf opcode = .Z) : IsFrameOf [opcode] (decodeZ opcode) := by
  obtain ⟨h11, h21, h30, h81⟩ := (formatOf_eq_Z_iff opcode).1 h
  unfold decodeZ
  split_ifs with h10 h12 h20 h31
  · subst h10; exact ⟨rfl, rfl, rfl⟩
  · subst h12; exact ⟨rfl, rfl, rfl⟩
  · subst h20; exact ⟨rfl, rfl, rfl⟩
  · subst h31; exact ⟨rfl, rfl, rfl⟩
  · exact ⟨rfl, (wellFormed_unassigned_iff opcode).2 (by
      simpa [assignedOpcodes] using ⟨h10, h11, h12, h20, h21, h30, h31, h81⟩), rfl⟩

theorem decodeB_isFrameOf (opcode imm8 : Byte) (h : formatOf opcode = .B) :
    IsFrameOf [opcode, imm8] (decodeB opcode imm8) := by
  obtain rfl | rfl := (formatOf_eq_B_iff opcode).1 h <;> exact ⟨rfl, rfl, rfl⟩

/-- The text a LOG.APPEND frame carries has the length its `LEN` byte says. -/
theorem logAppend_isFrameOf (len : Byte) (data : List Byte) (h : len.toNat ≤ data.length) :
    IsFrameOf (0x11 :: len :: data.take len.toNat) (.logAppend (data.take len.toNat)) := by
  have hlen : (data.take len.toNat).length = len.toNat := List.length_take_of_le h
  refine ⟨?_, ?_, rfl⟩
  · rw [encode, hlen, BitVec.ofNat_toNat, BitVec.setWidth_eq]
  · have := len.isLt
    exact decide_eq_true (by omega)

/-- All that the decoder can answer: the operation of the frame in front, and the bytes behind that frame. -/
theorem decode_ok_isFrameOf (bytes : List Byte) (i : Instr) (rest : List Byte) (h : decode bytes = .ok (i, rest)) :
    ∃ frame, bytes = frame ++ rest ∧ IsFrameOf frame i := by
  cases bytes with
  | nil => cases h
  | cons opcode operands =>
    simp only [decode] at h
    cases hf : formatOf opcode <;> simp only [hf] at h
    case Z => cases h; exact ⟨[opcode], rfl, decodeZ_isFrameOf opcode hf⟩
    case B =>
      cases operands with
      | nil => cases h
      | cons imm8 more => cases h; exact ⟨[opcode, imm8], rfl, decodeB_isFrameOf opcode imm8 hf⟩
    case V =>
      obtain rfl := (formatOf_eq_V_iff opcode).1 hf
      cases operands with
      | nil => cases h
      | cons len data =>
        dsimp only at h
        split at h
        · rename_i hle
          cases h
          exact ⟨_, by simp, logAppend_isFrameOf len data hle⟩
        · cases h
    case L =>
      obtain rfl := (formatOf_eq_L_iff opcode).1 hf
      split at h
      · cases h; exact ⟨_, rfl, rfl, rfl, rfl⟩
      · cases h

/-- Settles O2: what the decoder read is one frame of a well-formed operation, and TICK is no frame. -/
theorem decodedBytesAreTheEncoding : Obligations.DecodedBytesAreTheEncoding := by
  intro bytes i rest h
  obtain ⟨frame, hbytes, hframe⟩ := decode_ok_isFrameOf bytes i rest h
  refine ⟨by rw [hbytes, hframe.encoding], hframe.wellFormed, hframe.isFrame, ?_⟩
  rintro rfl
  exact absurd hframe.isFrame (by decide)

/-! ## When the decoder answers (R87) -/

/-- Once the length is known, the decoder answers exactly where that many bytes are there. -/
theorem decode_of_frameLength (bytes : List Byte) (n : Nat) (hn : frameLength bytes = some n) :
    (n ≤ bytes.length → ∃ i, decode bytes = .ok (i, bytes.drop n)) ∧
    (bytes.length < n → ∃ e, decode bytes = .error e) := by
  cases hd : decode bytes with
  | error e =>
    have hshort := Machine.decode_error_frameLength bytes e n hd hn
    exact ⟨fun hle => absurd hle (by omega), fun _ => ⟨e, rfl⟩⟩
  | ok p =>
    obtain ⟨i, rest⟩ := p
    obtain ⟨m, hm, hle, rfl⟩ := Machine.decode_ok_frameLength bytes i rest hd
    obtain rfl : m = n := Option.some.inj (hm.symm.trans hn)
    exact ⟨fun _ => ⟨i, rfl⟩, fun hlt => absurd hlt (by omega)⟩

theorem decode_of_frameLength_none (bytes : List Byte) (h : frameLength bytes = none) :
    ∃ e, decode bytes = .error e := by
  cases hd : decode bytes with
  | error e => exact ⟨e, rfl⟩
  | ok p =>
    obtain ⟨n, hn, -⟩ := Machine.decode_ok_frameLength bytes p.1 p.2 hd
    simp [h] at hn

/-- But for format V the opcode alone tells the length. -/
theorem frameLength_cons_of_ne_V (opcode : Byte) (rest : List Byte) (h : opcode ≠ 0x11) :
    frameLength (opcode :: rest) = frameLength [opcode] ∧ (frameLength [opcode]).isSome = true := by
  have hV : formatOf opcode ≠ .V := fun hf => h ((formatOf_eq_V_iff opcode).1 hf)
  cases hf : formatOf opcode with
  | V => exact absurd hf hV
  | Z | B | L => simp [frameLength, hf]

/-- Settles O3: the decoder's answer set against the announced length, and the length read off the format. -/
theorem decoderWaitsForWholeFrame : Obligations.DecoderWaitsForWholeFrame :=
  ⟨decode_of_frameLength, decode_of_frameLength_none, frameLength_cons_of_ne_V, fun _ _ => rfl⟩

/-! ## The opcode map -/

/-- Settles O4: an opcode that is none of the eight is a well-formed unassigned operation, encoded by that byte. -/
theorem unassignedOpcodesAreOneByteFrames : Obligations.UnassignedOpcodesAreOneByteFrames :=
  ⟨fun opcode rest h => decode_encode_unassigned opcode rest ((wellFormed_unassigned_iff opcode).2 h),
    by decide +kernel⟩

/-- Settles O5: each of the five byte sequences is the encoding of its operation, with what lies behind it. -/
theorem specFramesDecode : Obligations.SpecFramesDecode :=
  ⟨decodeInvertsEncode (.muxSet 42) [] rfl rfl, decodeInvertsEncode (.logAppend [0x4F, 0x4B]) [0x10] rfl rfl,
    decodeInvertsEncode (.encInit 20) [] rfl rfl, decodeInvertsEncode (.ledSet 1 0 0 1) [] rfl rfl,
    decodeInvertsEncode (.unassigned 0x7F) [] rfl rfl⟩

end Sys2Proof
end

section
/-! PROOF. One edge around the command port and the response port (R90, R93): what an edge does where FG is free and where
it is held off, and that no byte is lost on the way into the frame decoder or out of the response shifter. -/

namespace Sys2Proof.Machine

/-! ## An edge at which FG is free (R93) -/

/-- What an edge leaves where FG is free, beside the command bytes and the inputs it uses up: the timer is one edge on,
nothing is in progress, and all else stands. -/
structure State.OneTimerEdge (s t : State) : Prop where
  display : t.display = s.display
  pins : t.pins = s.pins
  log : t.log = s.log
  enc : t.enc = s.enc
  timer : t.timer = s.timer.edge Config.timerTop
  tickPhase : t.seq.tickPhase = .idle
  settle : t.seq.settle = .idle
  rsp : t.seq.rsp = []
  lines : t.env.lines = s.env.lines
  pinTrace : t.env.pinTrace = s.env.pinTrace
  taken : t.env.taken = s.env.taken

theorem clockEdge_oneTimerEdge (s : State) (h : fgFree s = true) : s.OneTimerEdge (clockEdge s) := by
  obtain ⟨hphase, hsettle, hrsp⟩ := (fgFree_iff s).1 h
  have hne : s.seq.settle ≠ .counting 0 := by simp [hsettle]
  exact {
    display := by simp [clockEdge_display, hphase]
    pins := by simp [clockEdge_pins, hphase, phasePins]
    log := clockEdge_log s
    enc := clockEdge_enc_of_ne s hne
    timer := by simp [clockEdge_timer, hphase]
    tickPhase := by simp [clockEdge_seq, hphase]
    settle := by simp [clockEdge_seq, hsettle, SettleCounter.next]
    rsp := by simp [clockEdge_seq, hsettle, hrsp, settleEmits]
    lines := clockEdge_lines_of_ne s hne
    pinTrace := by simp [clockEdge_pinTrace, hphase]
    taken := by simp [clockEdge_taken, hrsp] }

theorem cmdReady_of_free (s : State) (hrst : (edgeIn s).rst = false) (h : fgFree s = true) : cmdReady s = true := by
  simp [cmdReady, hrst, h]

/-- With FG free its next byte comes in behind what stays in the frame decoder, exactly where it is offered (R42). -/
theorem clockEdge_command_of_free (s : State) (hrst : (edgeIn s).rst = false) (h : fgFree s = true) :
    if (edgeIn s).cmdValid = true then
      (clockEdge s).seq.frame = frameLeft s ++ s.env.cmd.take 1 ∧ (clockEdge s).env.cmd = s.env.cmd.drop 1
    else (clockEdge s).seq.frame = frameLeft s ∧ (clockEdge s).env.cmd = s.env.cmd := by
  have hmoves : commandMoves s = (edgeIn s).cmdValid := by simp [commandMoves, cmdReady_of_free s hrst h]
  simp only [clockEdge_seq, clockEdge_cmd, hmoves]
  split <;> simp

/-! ## What a step without reset is -/

/-- An edge without reset is the clock edge, with the pending operation on top of it if there is one. -/
theorem step_next_cases (s t : State) (hrst : (edgeIn s).rst = false) (h : step s = .next t) :
    (∃ i rest, pendingOp s = some (i, rest) ∧ exec i (clockEdge s) = .next t) ∨
    (pendingOp s = none ∧ t = clockEdge s) := by
  obtain ⟨hreset, -⟩ | ⟨-, i, rest, hop, hs⟩ | ⟨-, hop, hs⟩ := step_cases s
  · simp [hrst] at hreset
  · exact .inl ⟨i, rest, hop, hs.symm.trans h⟩
  · exact .inr ⟨hop, Host.Outcome.next.inj (h.symm.trans hs)⟩

theorem step_of_pendingOp (s : State) (i : Instr) (rest : List Byte) (hrst : (edgeIn s).rst = false)
    (h : pendingOp s = some (i, rest)) : step s = exec i (clockEdge s) := by
  simp [step, hrst, h]

theorem step_of_no_pendingOp (s : State) (hrst : (edgeIn s).rst = false) (h : pendingOp s = none) :
    step s = .next (clockEdge s) := by
  simp [step, hrst, h]

theorem pendingOp_of_incomplete (s : State) (h : ∀ i rest, decode s.seq.frame ≠ .ok (i, rest)) :
    pendingOp s = none := by
  cases hop : pendingOp s with
  | none => rfl
  | some op => exact absurd (decode_of_pendingOp s op.1 op.2 hop) (h op.1 op.2)

/-- Settles O6: FG is free and its frame complete, so the operation is pending and its bytes leave the frame decoder. -/
theorem stepRunsTheCompleteFrame : Obligations.StepRunsTheCompleteFrame := by
  intro s i rest hrst hphase hsettle hrsp hdecode
  have hfree : fgFree s = true := (fgFree_iff s).2 ⟨hphase, hsettle, hrsp⟩
  have hop : pendingOp s = some (i, rest) := (pendingOp_eq_some s i rest).2 ⟨hfree, hdecode⟩
  have hedge := clockEdge_oneTimerEdge s hfree
  have hcommand := clockEdge_command_of_free s hrst hfree
  rw [frameLeft_some s i rest hop] at hcommand
  exact ⟨step_of_pendingOp s i rest hrst hop, hedge.display, hedge.pins, hedge.log, hedge.enc, hedge.timer,
    hedge.settle, hedge.rsp, hedge.tickPhase, hedge.lines, hedge.pinTrace, hedge.taken, clockEdge_edges s, hcommand⟩

/-- Settles O10: with no complete frame nothing is pending, and the step is the clock edge of a free FG. -/
theorem idleEdgeChangesNothing : Obligations.IdleEdgeChangesNothing := by
  intro s hrst hphase hsettle hrsp hincomplete
  have hfree : fgFree s = true := (fgFree_iff s).2 ⟨hphase, hsettle, hrsp⟩
  have hop : pendingOp s = none := pendingOp_of_incomplete s hincomplete
  have hedge := clockEdge_oneTimerEdge s hfree
  have hcommand := clockEdge_command_of_free s hrst hfree
  rw [frameLeft_none s hop] at hcommand
  exact ⟨cmdReady_of_free s hrst hfree, clockEdge s, step_of_no_pendingOp s hrst hop, hedge.display, hedge.pins,
    hedge.log, hedge.enc, hedge.timer, hedge.tickPhase, hedge.settle, hedge.rsp, hedge.lines, hedge.pinTrace,
    hedge.taken, hcommand⟩

/-! ## An edge at which FG is held off (R93, R186, R220) -/

theorem fgFree_eq_false_iff (s : State) :
    fgFree s = false ↔ phaseAt s ≠ .idle ∨ s.seq.settle ≠ .idle ∨ s.seq.rsp ≠ [] := by
  rw [← Bool.not_eq_true, fgFree_iff, not_and_or, not_and_or]

/-- No edge changes the latched value or its digits; a Tick's last phase only chooses the other digit. -/
theorem clockEdge_digits (s : State) :
    (clockEdge s).display.buffer = s.display.buffer ∧ (clockEdge s).display.ones = s.display.ones ∧
    (clockEdge s).display.tens = s.display.tens := by
  rw [clockEdge_display]; split <;> exact ⟨rfl, rfl, rfl⟩

/-- Settles O9: nothing is pending and no command byte moves, so the step is the clock edge, which counts the settle
counter on and reaches the encoder only at its end. -/
theorem heldForegroundDoesNothing : Obligations.HeldForegroundDoesNothing := by
  intro s hrst hheld
  have hfree : fgFree s = false := (fgFree_eq_false_iff s).2 hheld
  have hmoves := commandMoves_of_held s hfree
  have hframe : (clockEdge s).seq.frame = s.seq.frame := by
    simp [clockEdge_seq, hmoves, frameLeft_none s (pendingOp_of_held s hfree)]
  obtain ⟨hbuffer, hones, htens⟩ := clockEdge_digits s
  exact ⟨by simp [cmdReady, hfree], clockEdge s, step_of_held s hrst hfree, clockEdge_log s, hbuffer, hones, htens,
    hframe, by simp [clockEdge_cmd, hmoves], by rw [clockEdge_seq],
    fun hne => ⟨clockEdge_enc_of_ne s hne, clockEdge_lines_of_ne s hne⟩⟩

/-! ## A frame placed in the frame decoder (log 5) -/

/-- Of the outside an edge touches its inputs, the two ports and the pin trace, but at the end of a settle wait. -/
theorem clockEdge_env_of_ne (s : State) (h : s.seq.settle ≠ .counting 0) :
    (clockEdge s).env =
      { (edgeTaken s).env with
        cmd := (clockEdge s).env.cmd, taken := (clockEdge s).env.taken, pinTrace := (clockEdge s).env.pinTrace } := by
  simp only [clockEdge]
  split <;> split <;>
    (simp only [transferCommand_env, consumeFrame_env, phaseStep_env]
     rw [settleEdge_of_ne _ (by simp [timerEdge, h])]
     simp [timerEdge])

/-- The bytes of the frame in front, alone, decode to its operation and nothing behind it. -/
theorem decode_take_frameLength (bytes : List Byte) (i : Instr) (rest : List Byte)
    (h : decode bytes = .ok (i, rest)) : decode (bytes.take ((frameLength bytes).getD 0)) = .ok (i, []) := by
  obtain ⟨n, hn, -, hrest⟩ := decode_ok_frameLength bytes i rest h
  obtain ⟨hbytes, hwf, hframe, -⟩ := decodedBytesAreTheEncoding bytes i rest h
  have hfront : bytes.take n = encode i := by
    apply List.append_cancel_right (bs := rest)
    rw [← hbytes, hrest, List.take_append_drop]
  rw [hn, Option.getD_some, hfront]
  simpa using decodeInvertsEncode i [] hwf hframe

theorem decode_tableFrame (nbits w : Nat) (i : Instr) (h : decodeTableWord nbits w = some i) :
    decode (tableFrame nbits w) = .ok (i, []) := by
  unfold decodeTableWord at h
  split at h
  · rename_i i' rest hdecode
    cases h
    exact decode_take_frameLength _ i rest hdecode
  · cases h

/-- A table word that decodes is a frame, not TICK's row of no bits (R89). -/
theorem withFetchWord_of_decodes (s : State) (nbits w : Nat) (i : Instr) (h : decodeTableWord nbits w = some i) :
    s.withFetchWord nbits w = placeFrame (tableFrame nbits w) s := by
  refine if_neg ?_
  rintro rfl
  simp [decodeTableWord, tableBytes, decode] at h

section
variable (bytes : List Byte) (s : State)

theorem edgeIn_placeFrame : edgeIn (placeFrame bytes s) = quietEdge := rfl

theorem edgeTaken_placeFrame_env : (edgeTaken (placeFrame bytes s)).env = s.env := rfl

theorem fgFree_placeFrame : fgFree (placeFrame bytes s) = true := (fgFree_iff _).2 ⟨rfl, rfl, rfl⟩

/-- The edge after the placing uses up the quiet input and nothing else of the outside. -/
theorem clockEdge_placeFrame_env : (clockEdge (placeFrame bytes s)).env = s.env := by
  have hedge := clockEdge_oneTimerEdge _ (fgFree_placeFrame bytes s)
  have hcommand := clockEdge_command_of_free (placeFrame bytes s) rfl (fgFree_placeFrame bytes s)
  rw [if_neg (by simp [edgeIn_placeFrame, quietEdge])] at hcommand
  obtain ⟨-, hcmd⟩ := hcommand
  rw [clockEdge_env_of_ne _ (by simp [placeFrame]), hcmd, hedge.taken, hedge.pinTrace, edgeTaken_placeFrame_env]
  rfl

/-- The edge after the placing takes the frame out and leaves a block at rest. -/
theorem clockEdge_placeFrame_seq (i : Instr) (h : decode bytes = .ok (i, [])) :
    (clockEdge (placeFrame bytes s)).seq = { frame := [], tickPhase := .idle, settle := .idle, rsp := [] } := by
  have hop : pendingOp (placeFrame bytes s) = some (i, []) :=
    (pendingOp_eq_some _ i []).2 ⟨fgFree_placeFrame bytes s, h⟩
  have hmoves : commandMoves (placeFrame bytes s) = false := by
    simp [commandMoves, edgeIn_placeFrame, quietEdge]
  rw [clockEdge_seq, frameLeft_some _ i [] hop, hmoves]
  rfl

end

/-- Settles O7: the placed frame is complete and FG is free, so its operation is pending at that edge, whose only other
work is the timer's. -/
theorem placedFrameRunsAtNextStep : Obligations.PlacedFrameRunsAtNextStep := by
  intro s nbits w i h
  have hdecode := decode_tableFrame nbits w i h
  rw [withFetchWord_of_decodes s nbits w i h]
  generalize tableFrame nbits w = bytes at hdecode
  have hfree := fgFree_placeFrame bytes s
  have hop : pendingOp (placeFrame bytes s) = some (i, []) := (pendingOp_eq_some _ i []).2 ⟨hfree, hdecode⟩
  have hedge := clockEdge_oneTimerEdge _ hfree
  exact ⟨step_of_pendingOp _ i [] rfl hop, hedge.display, hedge.pins, hedge.log, hedge.enc, hedge.timer,
    clockEdge_placeFrame_seq bytes s i hdecode, clockEdge_placeFrame_env bytes s⟩

/-! ## The command bytes (R93) -/

/-- No operation moves a byte on either port: FG's bytes and those HOST has taken are the edge's matter. -/
theorem exec_keeps_ports (i : Instr) (s t : State) (h : exec i s = .next t) :
    t.env.cmd = s.env.cmd ∧ t.env.taken = s.env.taken := by
  cases i with
  | encSample =>
    obtain ⟨gate, rfl⟩ | rfl := exec_encSample_next s t h <;> exact ⟨linesTaken_cmd s, linesTaken_taken s⟩
  | logAppend text =>
    obtain rfl | ⟨-, rfl⟩ := exec_logAppend_next text s t h <;> exact ⟨rfl, rfl⟩
  | logDrain =>
    obtain ⟨_, _, _, _, -, rfl⟩ := exec_logDrain_next s t h
    exact ⟨rfl, rfl⟩
  | logInit | muxInit | muxSet | encInit | ledSet | tick | unassigned => cases h; exact ⟨rfl, rfl⟩

/-- An edge takes from the command bytes, in the frame decoder and in FG, only the frame that takes effect. -/
theorem clockEdge_command (s : State) :
    (clockEdge s).seq.frame ++ (clockEdge s).env.cmd = frameLeft s ++ s.env.cmd := by
  rw [clockEdge_seq, clockEdge_cmd]
  cases commandMoves s
  · simp
  · simp only [if_true, List.append_assoc, List.take_append_drop]

/-- Settles O12: the edge moves the bytes in order behind what the decoder read, which is an encoding, and no operation
touches them. -/
theorem commandBytesNeverLost : Obligations.CommandBytesNeverLost := by
  intro s t hrst hstep
  obtain ⟨i, rest, hop, hexec⟩ | ⟨hop, rfl⟩ := step_next_cases s t hrst hstep
  · obtain ⟨hframe, -, -⟩ := exec_seq_cases i _ t hexec
    obtain ⟨hcmd, -⟩ := exec_keeps_ports i _ t hexec
    obtain ⟨hread, -⟩ := decodedBytesAreTheEncoding _ i rest (decode_of_pendingOp s i rest hop)
    rw [hframe, hcmd, clockEdge_command, frameLeft_some s i rest hop, hop, hread, List.append_assoc]
  · rw [clockEdge_command, frameLeft_none s hop, hop, List.nil_append]

/-! ## The response bytes (R90) -/

/-- An edge moves the response bytes from the shifter to HOST in order, and adds only what a settle wait ending at it
answers. -/
theorem clockEdge_response (s : State) :
    (clockEdge s).env.taken ++ (clockEdge s).seq.rsp = (s.env.taken ++ s.seq.rsp) ++ settleEmits s := by
  have hmove : s.seq.rsp.take 1 ++ s.seq.rsp.tail = s.seq.rsp := by cases s.seq.rsp <;> simp
  rw [clockEdge_seq, clockEdge_taken]
  cases responseMoves s
  · simp
  · simp only [if_true, List.append_assoc]
    rw [← List.append_assoc (s.seq.rsp.take 1), hmove]

theorem settleEmits_of_pendingOp (s : State) (i : Instr) (rest : List Byte) (h : pendingOp s = some (i, rest)) :
    settleEmits s = [] := by
  obtain ⟨-, hsettle, -⟩ := (fgFree_iff s).1 (fgFree_of_pendingOp s i rest h)
  exact if_neg (by simp [hsettle])

/-- What an ending settle wait answers is the count it leaves (R153). -/
theorem settleEmits_eq (s : State) :
    settleEmits s = if s.seq.settle = .counting 0 then [(clockEdge s).enc.count] else [] := by
  rw [clockEdge_enc, settleEmits]

theorem isBlockOf_append_pad (payload pad : List Byte) (h : payload.length + pad.length = 63) :
    isBlockOf (prefixByte Config.drainPrefixBias payload.length :: payload ++ pad) payload := by
  refine ⟨pad, rfl, ?_⟩
  have hsize : Config.reportSize = 64 := rfl
  simp only [List.length_append, List.length_cons]
  omega

/-- LOG.DRAIN adds one block to the response shifter, whose payload is the oldest bytes of the ring in order (R136). -/
theorem exec_logDrain_block (s t : State) (h : exec .logDrain s = .next t) :
    ∃ block payload, t.seq.rsp = s.seq.rsp ++ block ∧ isBlockOf block payload ∧
      payload.length = min s.log.level.toNat 63 ∧
      ∀ j < payload.length, payload[j]? = s.log.ring.read ((s.log.startIx.toNat + j) % 256) := by
  obtain ⟨payload, log, hpop, hnext⟩ | ⟨_, -, hfault⟩ := drain_cases Config.reportSize Config.drainPrefixBias s
  · obtain rfl := Host.Outcome.next.inj (h.symm.trans hnext)
    obtain ⟨hlen, hread, -⟩ := LogBuffer.popMany_ok _ _ _ _ (payloadCount_le_level _ _) hpop
    have hle : payload.length ≤ 63 := hlen ▸ Nat.min_le_right _ _
    rw [← hlen] at hread ⊢
    refine ⟨_, payload, List.append_assoc .., isBlockOf_append_pad payload _ ?_, hlen,
      fun j hj => (hread j hj).symm⟩
    have hsize : Config.reportSize = 64 := rfl
    rw [padBytes_length]
    omega
  · exact absurd (h.symm.trans hfault) (by simp)

theorem isBlockOf_length (block payload : List Byte) (h : isBlockOf block payload) : block.length = 64 := by
  obtain ⟨-, -, hsize⟩ := h
  exact hsize

/-- The first byte of a block is its payload's number of bytes less the bias, or 0 (R137). -/
theorem isBlockOf_head (block payload : List Byte) (h : isBlockOf block payload) :
    block.head? = some (if payload.length = 0 then 0 else BitVec.ofNat 8 (payload.length - 1)) := by
  obtain ⟨pad, rfl, -⟩ := h
  rfl

theorem isBlockOf_getElem (block payload : List Byte) (h : isBlockOf block payload) (j : Nat)
    (hj : j < payload.length) : block[j + 1]? = payload[j]? := by
  obtain ⟨pad, rfl, -⟩ := h
  rw [List.cons_append, List.getElem?_cons_succ, List.getElem?_append_left hj]

/-- A Sample answers its count at once, or goes into the settle wait and answers nothing yet (R153). -/
theorem exec_encSample_rsp (s t : State) (hs : s.seq.settle = .idle) (h : exec .encSample s = .next t) :
    t.seq.rsp = s.seq.rsp ++ if t.seq.settle = .idle then [t.enc.count] else [] := by
  obtain ⟨gate, rfl⟩ | rfl := exec_encSample_next s t h <;> simp [hs]

/-- Every other operation answers nothing. -/
theorem exec_rsp_of_ne (i : Instr) (s t : State) (hdrain : i ≠ .logDrain) (hsample : i ≠ .encSample)
    (h : exec i s = .next t) : t.seq.rsp = s.seq.rsp := by
  cases i with
  | logDrain => exact absurd rfl hdrain
  | encSample => exact absurd rfl hsample
  | logAppend text => obtain rfl | ⟨-, rfl⟩ := exec_logAppend_next text s t h <;> rfl
  | logInit | muxInit | muxSet | encInit | ledSet | tick | unassigned => cases h; rfl

/-- At an edge with an operation the response bytes grow by what the operation adds to the shifter. -/
theorem response_of_pendingOp (s t : State) (i : Instr) (rest new : List Byte) (hop : pendingOp s = some (i, rest))
    (hexec : exec i (clockEdge s) = .next t) (hrsp : t.seq.rsp = (clockEdge s).seq.rsp ++ new) :
    t.env.taken ++ t.seq.rsp = (s.env.taken ++ s.seq.rsp) ++ new := by
  obtain ⟨-, htaken⟩ := exec_keeps_ports i _ t hexec
  rw [htaken, hrsp, ← List.append_assoc, clockEdge_response, settleEmits_of_pendingOp s i rest hop, List.append_nil]

theorem level_eq_zero_iff (level : Level) : level = 0 ↔ min level.toNat 63 = 0 := by
  rw [← BitVec.toNat_inj]
  simp

/-- Settles O13: the edge adds only an ending settle wait's answer, and of the operations only LOG.DRAIN and ENC.SAMPLE
add to the shifter. -/
theorem responseBytesNeverLost : Obligations.ResponseBytesNeverLost := by
  intro s t hrst hstep
  obtain ⟨i, rest, hop, hexec⟩ | ⟨hop, rfl⟩ := step_next_cases s t hrst hstep
  · have hgrow := fun new => response_of_pendingOp s t i rest new hop hexec
    rw [hop]
    cases i with
    | logDrain =>
      obtain ⟨block, payload, hrsp, hblock, hlen, hread⟩ := exec_logDrain_block _ t hexec
      rw [clockEdge_log] at hlen hread
      refine ⟨block, hgrow block hrsp, isBlockOf_length block payload hblock, ?_, fun j hj => ?_⟩
      · simp only [isBlockOf_head block payload hblock, hlen, level_eq_zero_iff]
      · rw [← hlen] at hj
        rw [isBlockOf_getElem block payload hblock j hj, hread j hj]
    | encSample =>
      obtain ⟨-, hidle, -⟩ := clockEdge_seq_of_pendingOp s _ rest hop
      exact ⟨_, hgrow _ (exec_encSample_rsp _ t hidle hexec), rfl⟩
    | logAppend | logInit | muxInit | muxSet | encInit | ledSet | tick | unassigned =>
      exact ⟨[], hgrow [] (by rw [exec_rsp_of_ne _ _ t (by simp) (by simp) hexec, List.append_nil]), rfl⟩
  · rw [hop]
    exact ⟨settleEmits s, clockEdge_response s, settleEmits_eq s⟩

end Sys2Proof.Machine
end

section
/-! PROOF. The seven-segment multiplexer (40_mux.md): the digits of a value (R111), what MUX.INIT, MUX.SET and TICK do and
leave unchanged (R112 to R114), what a run of Ticks shows (R116, R117), and that three clock edges are one TICK (R187). -/

namespace Sys2Proof.Machine

/-! ## TICK, part by part (R113) -/

@[simp] theorem ticked_display (s : State) :
    (ticked s).display = { s.display with activeDigit := s.display.activeDigit.flip } := rfl

/-- The pins with the pattern of a digit on the bus and that digit alone enabled: what phase P3 leaves. -/
def Pins.showing (pattern : Byte) : Digit → Pins
  | .ones => { seg := pattern, enOnes := .active, enTens := .inactive }
  | .tens => { seg := pattern, enOnes := .inactive, enTens := .active }

/-- Lighting a digit of dark pins enables that digit alone. -/
theorem Pins.light_dark (pattern : Byte) (d : Digit) :
    Pins.light { seg := pattern, enOnes := .inactive, enTens := .inactive } d = Pins.showing pattern d := by
  cases d <;> rfl

theorem ticked_pins_eq_showing (s : State) :
    (ticked s).pins = Pins.showing (Config.seg s.display.shown) s.display.activeDigit := Pins.light_dark _ _

theorem tickDriven_eq (s : State) :
    tickDriven s =
      [{ seg := s.pins.seg, enOnes := .inactive, enTens := .inactive },
       { seg := Config.seg s.display.shown, enOnes := .inactive, enTens := .inactive },
       Pins.showing (Config.seg s.display.shown) s.display.activeDigit] := by
  rw [← Pins.light_dark]; rfl

/-- Settles O17: `activeDigit` chooses the digit shown and the enable made active; no other part is reached. -/
theorem tickEffect : Obligations.TickEffect := by
  intro s
  refine ⟨ticked s, exec_tick s, ?_, rfl, rfl, rfl, rfl, rfl, rfl, rfl, by rw [ticked_env]⟩
  rw [ticked_display, ticked_env, ticked_pins_eq_showing, tickDriven_eq]
  cases hdigit : s.display.activeDigit with
  | ones => simp [DisplayState.shown, hdigit, Pins.showing, Digit.flip]
  | tens => simp [DisplayState.shown, hdigit, Pins.showing, Digit.flip]

/-! ## The digits, MUX.INIT and MUX.SET (R111, R112, R114) -/

/-- Settles O14: digits that are remainders modulo 10 are at most 9, and a quotient below 10 is its own remainder. -/
theorem digitsDecomposeModulo : Obligations.DigitsDecomposeModulo := by
  intro v
  obtain ⟨hones, htens⟩ := digits_sound v .ones
  obtain ⟨hones9, htens9⟩ := DisplayState.le_nine_of_sound _ (digits_sound v .ones)
  exact ⟨hones, htens, hones9, htens9, fun hv => htens.trans (by dsimp only; omega)⟩

/-- Settles O15: the frame decodes as an encoding does, and MUX.INIT writes the display, the enables and the timer. -/
theorem muxInitEffect : Obligations.MuxInitEffect :=
  ⟨fun rest => decodeInvertsEncode .muxInit rest rfl rfl, fun _ => ⟨_, rfl, rfl, rfl, rfl, rfl, rfl, rfl, rfl⟩⟩

/-- The state MUX.SET of a value leaves. -/
def muxSetTo (value : Byte) (s : State) : State :=
  s.withDisplay { s.display with buffer := value, ones := (digits value).1, tens := (digits value).2 }

theorem exec_muxSet (value : Byte) (s : State) : exec (.muxSet value) s = .next (muxSetTo value s) := rfl

/-- Settles O16: MUX.SET writes the DisplayState alone, and the digits it writes are those of the value. -/
theorem muxSetEffect : Obligations.MuxSetEffect := by
  refine ⟨fun value rest => decodeInvertsEncode (.muxSet value) rest rfl rfl, fun value s => ?_⟩
  obtain ⟨hones, htens⟩ := digits_sound value s.display.activeDigit
  exact ⟨muxSetTo value s, exec_muxSet value s, rfl, hones, htens, rfl, rfl, rfl, rfl, rfl, rfl, rfl⟩

/-! ## A run of Ticks (R116, R117) -/

theorem execAll_replicate_tick (n : Nat) (s : State) :
    execAll (List.replicate n .tick) s = .next (ticked^[n] s) := by
  induction n generalizing s with
  | zero => rfl
  | succ n ih => rw [List.replicate_succ, execAll_cons, perform_tick, andThen_next, ih, Function.iterate_succ_apply]

theorem ticked_iterate_activeDigit (n : Nat) (s : State) :
    (ticked^[n] s).display.activeDigit = Digit.flip^[n] s.display.activeDigit :=
  have hflips : Function.Semiconj (fun t : State => t.display.activeDigit) ticked Digit.flip := fun _ => rfl
  hflips.iterate_right n s

/-- Settles O19: each Tick flips `activeDigit`, and flipping is an involution. -/
theorem evenTicksRestoreTheDigit : Obligations.EvenTicksRestoreTheDigit := by
  intro n s
  have hflip : Function.Involutive Digit.flip := Digit.flip_flip
  refine ⟨⟨_, execAll_replicate_tick (2 * n) s, ?_⟩, ⟨_, execAll_replicate_tick (2 * n + 1) s, ?_⟩⟩
  · rw [ticked_iterate_activeDigit, hflip.iterate_two_mul, id]
  · rw [ticked_iterate_activeDigit, hflip.iterate_two_mul_add_one]

theorem execAll_muxSet_tick_tick (value : Byte) (s : State) :
    execAll [.muxSet value, .tick, .tick] s = .next (ticked (ticked (muxSetTo value s))) := by
  rw [execAll_cons, perform_eq_exec _ _ (by simp), exec_muxSet, andThen_next]
  exact execAll_replicate_tick 2 (muxSetTo value s)

/-- Settles O18: MUX.SET leaves `activeDigit` alone, the first Tick shows that digit and the second the other one, each
its own part of the value; the pins before a Tick do not matter to what it enables. -/
theorem setThenTwoTicksShowBothDigits : Obligations.SetThenTwoTicksShowBothDigits := by
  intro value s
  refine ⟨_, tickDriven (muxSetTo value s) ++ tickDriven (ticked (muxSetTo value s)),
    execAll_muxSet_tick_tick value s, ?_, rfl, ?_, ?_⟩
  · rw [ticked_env, ticked_env, List.append_assoc]; rfl
  · rw [List.forall_mem_append]
    exact ⟨tickDriven_exclusive _, tickDriven_exclusive _⟩
  · simp only [tickDriven_eq, ticked_display, DisplayState.shown, muxSetTo, State.withDisplay_display]
    cases s.display.activeDigit with
    | ones => exact ⟨rfl, rfl⟩
    | tens => exact ⟨rfl, rfl⟩

/-! ## Three edges are one TICK (R113, R187, R188) -/

/-- `t` agrees with `s` on all that the edges of a Tick and the operation TICK must leave alike: the display, the pins and
their trace, the log and the command bytes, and the encoder too unless a Sample is in its settle wait (R186(b)). The
timer, the response port and the inputs, which the clock moves on by itself, are left out. -/
structure State.SameForTick (s t : State) : Prop where
  display : t.display = s.display
  pins : t.pins = s.pins
  pinTrace : t.env.pinTrace = s.env.pinTrace
  log : t.log = s.log
  frame : t.seq.frame = s.seq.frame
  cmd : t.env.cmd = s.env.cmd
  noWait : s.seq.settle = .idle → t.seq.settle = .idle ∧ t.enc = s.enc

theorem State.SameForTick.trans {s t u : State} (hst : s.SameForTick t) (htu : t.SameForTick u) : s.SameForTick u where
  display := htu.display.trans hst.display
  pins := htu.pins.trans hst.pins
  pinTrace := htu.pinTrace.trans hst.pinTrace
  log := htu.log.trans hst.log
  frame := htu.frame.trans hst.frame
  cmd := htu.cmd.trans hst.cmd
  noWait := fun hs => by
    obtain ⟨ht, henct⟩ := hst.noWait hs
    obtain ⟨hu, hencu⟩ := htu.noWait ht
    exact ⟨hu, hencu.trans henct⟩

/-- A phase's pin values depend on the display and the pins alone. -/
theorem phasePins_congr (p : TickPhase) {s t : State} (hdisplay : t.display = s.display) (hpins : t.pins = s.pins) :
    phasePins p t = phasePins p s := by
  cases p <;> simp only [phasePins, hdisplay, hpins]

/-- A phase does the same in states that agree. -/
theorem State.SameForTick.phaseStep (p : TickPhase) {s t : State} (h : s.SameForTick t) :
    (phaseStep p s).SameForTick (phaseStep p t) where
  display := by simp only [phaseStep_display, h.display]
  pins := by simp only [phaseStep_pins, phasePins_congr p h.display h.pins]
  pinTrace := by simp only [phaseStep_env, phasePins_congr p h.display h.pins, h.pinTrace]
  log := by simp only [phaseStep_log, h.log]
  frame := by simp only [phaseStep_seq, h.frame]
  cmd := by simp only [phaseStep_env, h.cmd]
  noWait := by simpa only [phaseStep_seq, phaseStep_enc] using h.noWait

theorem fgFree_eq_false_of_phase (s : State) (h : phaseAt s ≠ .idle) : fgFree s = false :=
  (fgFree_eq_false_iff s).2 (.inl h)

/-- The edge of a Tick phase is that phase, with FG held off. -/
theorem phaseStep_sameForTick_clockEdge (s : State) (h : phaseAt s ≠ .idle) :
    (phaseStep (phaseAt s) s).SameForTick (clockEdge s) := by
  have hheld := fgFree_eq_false_of_phase s h
  have hmoves := commandMoves_of_held s hheld
  exact {
    display := by rw [clockEdge_display, phaseStep_display]
    pins := by rw [clockEdge_pins, phaseStep_pins]
    pinTrace := by rw [clockEdge_pinTrace, phaseStep_env]
    log := by rw [clockEdge_log, phaseStep_log]
    frame := by simp [clockEdge_seq, hmoves, frameLeft_none s (pendingOp_of_held s hheld)]
    cmd := by simp [clockEdge_cmd, hmoves]
    noWait := fun hnone => by
      have hidle : s.seq.settle = .idle := by simpa only [phaseStep_seq] using hnone
      rw [clockEdge_seq, phaseStep_enc, clockEdge_enc_of_ne s (by simp [hidle]), hidle]
      exact ⟨rfl, rfl⟩ }

/-- An edge without reset at which a Tick phase is due completes and performs it. -/
theorem step_performs_phase (p : TickPhase) (s : State) (hrst : (edgeIn s).rst = false) (hphase : phaseAt s = p)
    (hp : p ≠ .idle) :
    ∃ t, step s = .next t ∧ t.seq.tickPhase = p ∧ (phaseStep p s).SameForTick t := by
  subst hphase
  exact ⟨clockEdge s, step_of_held s hrst (fgFree_eq_false_of_phase s hp), by rw [clockEdge_seq],
    phaseStep_sameForTick_clockEdge s hp⟩

theorem phaseAt_of_request (s : State) (hphase : s.seq.tickPhase = .idle) (hpending : s.timer.tickPending = true) :
    phaseAt s = .p1 := by
  simp [phaseAt, hphase, hpending]

/-- After P3 there is no further phase but the next request's (R188). -/
theorem phaseAt_of_p3 (s : State) (hphase : s.seq.tickPhase = .p3) (hpending : s.timer.tickPending = false) :
    phaseAt s = .idle := by
  simp [phaseAt, hphase, hpending]

/-- TICK is its three phases in order. -/
theorem ticked_sameForTick_phases (s : State) :
    (ticked s).SameForTick (phaseStep .p3 (phaseStep .p2 (phaseStep .p1 s))) :=
  ⟨rfl, rfl, rfl, rfl, rfl, rfl, fun hidle => ⟨hidle, rfl⟩⟩

/-- Settles O38: each edge performs the Tick's next phase on what the edge before it left, and the phases in order are
TICK. -/
theorem threeEdgesAreOneTick : Obligations.ThreeEdgesAreOneTick := by
  intro s hpending hidle hrst
  obtain ⟨s1, hstep1, hphase1, hsame1⟩ :=
    step_performs_phase .p1 s hrst (phaseAt_of_request s hidle hpending) (by simp)
  refine ⟨s1, hstep1, fun hrst1 => ?_⟩
  obtain ⟨s2, hstep2, hphase2, hsame2⟩ := step_performs_phase .p2 s1 hrst1 (phaseAt_of_p1 s1 hphase1) (by simp)
  refine ⟨s2, hstep2, fun hrst2 => ?_⟩
  obtain ⟨s3, hstep3, hphase3, hsame3⟩ := step_performs_phase .p3 s2 hrst2 (phaseAt_of_p2 s2 hphase2) (by simp)
  have hsame2' : (phaseStep .p2 (phaseStep .p1 s)).SameForTick s2 := (hsame1.phaseStep .p2).trans hsame2
  have hsame3' : (phaseStep .p3 (phaseStep .p2 (phaseStep .p1 s))).SameForTick s3 :=
    (hsame2'.phaseStep .p3).trans hsame3
  have hsame : (ticked s).SameForTick s3 := (ticked_sameForTick_phases s).trans hsame3'
  refine ⟨s3, ticked s, hstep3, exec_tick s, hsame.display, hsame.pins, hsame.pinTrace, hsame.log, fun hnone => ?_,
    hsame.frame, hsame.cmd, hphase3, phaseAt_of_p3 s3 hphase3⟩
  obtain ⟨-, henc⟩ := hsame.noWait hnone
  exact henc

end Sys2Proof.Machine
end

section
/-! PROOF. The cyclic log buffer (41_log.md): what LOG.INIT, LOG.APPEND and LOG.DRAIN do and leave unchanged (R131 to
R137), and that any sequence of Appends and Drains is a bounded queue (R138). -/

namespace Sys2Proof.Machine

/-! ## LOG.INIT and LOG.APPEND (R131 to R134) -/

/-- Settles O21: the frame decodes as an encoding does, and LOG.INIT writes the two indices and the level alone. -/
theorem logInitEffect : Obligations.LogInitEffect :=
  ⟨fun rest => decodeInvertsEncode .logInit rest rfl rfl, fun _ => ⟨_, rfl, rfl, rfl, rfl, rfl, rfl, rfl, rfl⟩⟩

theorem stored_length (text : List Byte) : (stored text).length = text.length + 2 := by simp [stored]

/-- Settles O22: the admission test decides between no operation at all and the loop over the text, CR and LF, whose
laws say where each byte stands. -/
theorem appendStoresWholeOrNothing : Obligations.AppendStoresWholeOrNothing := by
  intro text s htext
  have hlen := stored_length text
  refine ⟨execLogAppend_dropped text s, fun hfit => ⟨_, execLogAppend_accepted text s hfit,
    LogBuffer.pushAll_startIx _ _, ?endIx, ?level, ?storedBytes, ?otherBytes, rfl, rfl, rfl, rfl, rfl, rfl⟩⟩
  case endIx => rw [State.withLog_log, LogBuffer.pushAll_endIx, hlen, Nat.add_assoc]
  case level => rw [State.withLog_log, LogBuffer.pushAll_level _ _ (by omega), hlen, Nat.add_assoc]
  case storedBytes => exact fun j hj => LogBuffer.pushAll_read_stored _ _ (by omega) j (by omega)
  case otherBytes => exact fun a ha => LogBuffer.pushAll_read_other _ _ a fun j hj => ha j (by omega)

/-! ## LOG.DRAIN (R135 to R137) -/

/-- Where the ring holds `payload` from `start` on, LOG.DRAIN's loop returns it. -/
theorem LogBuffer.popMany_of_read (l : LogBuffer) (payload : List Byte) (hle : payload.length ≤ l.level.toNat)
    (hread : ∀ j < payload.length, l.ring.read ((l.startIx.toNat + j) % 256) = payload[j]?) :
    ∃ log, l.popMany payload.length = .ok (payload, log) := by
  obtain ⟨hcompletes, -⟩ := LogBuffer.popMany_total payload.length l
  obtain ⟨⟨bytes, log⟩, hpop⟩ := hcompletes fun j hj => by simp [hread j hj, hj]
  obtain ⟨hlen, hbytes, -⟩ := LogBuffer.popMany_ok _ l log bytes hle hpop
  have heq : bytes = payload := List.ext_getElem? fun j => by
    by_cases hj : j < payload.length
    · rw [← hbytes j hj, hread j hj]
    · rw [List.getElem?_eq_none (by omega), List.getElem?_eq_none (by omega)]
  exact ⟨log, heq ▸ hpop⟩

/-- The state a Drain leaves that has returned `payload` and left the buffer `log`: one whole block in the response
shifter. -/
def drainedTo (payload : List Byte) (log : LogBuffer) (s : State) : State :=
  emitPad (63 - payload.length) (emit (prefixByte Config.drainPrefixBias payload.length :: payload) (s.withLog log))

theorem drainedTo_seq (payload : List Byte) (log : LogBuffer) (s : State) :
    (drainedTo payload log s).seq =
      { s.seq with
        rsp := s.seq.rsp ++
          (prefixByte Config.drainPrefixBias payload.length :: payload ++ padBytes (63 - payload.length) s) } := by
  simp only [drainedTo, emitPad_seq, emit_seq, State.withLog_seq, List.append_assoc]
  rfl

/-- A LOG.DRAIN in a state whose ring holds `payload` at the positions it reads: it completes and returns `payload`. -/
theorem exec_logDrain_of_read (s : State) (payload : List Byte) (hlen : payload.length = min s.log.level.toNat 63)
    (hread : ∀ j < payload.length, s.log.ring.read ((s.log.startIx.toNat + j) % 256) = payload[j]?) :
    ∃ log, s.log.popMany payload.length = .ok (payload, log) ∧
      exec .logDrain s = .next (drainedTo payload log s) := by
  obtain ⟨log, hpop⟩ := LogBuffer.popMany_of_read s.log payload (hlen ▸ Nat.min_le_left _ _) hread
  have hcount : payloadCount Config.reportSize s.log.level = payload.length := hlen.symm
  refine ⟨log, hpop, ?_⟩
  obtain ⟨bytes, log', hpop', hnext⟩ | ⟨a, herror, -⟩ := drain_cases Config.reportSize Config.drainPrefixBias s
  · rw [hcount] at hpop' hnext
    cases hpop.symm.trans hpop'
    exact hnext
  · rw [hcount] at herror
    cases hpop.symm.trans herror

/-- Settles O23: the frame decodes as an encoding does; the loop returns the bytes that stand from `start` on, and the
block is the length byte, those bytes and the pad up to 64. -/
theorem drainReturnsOldestBytes : Obligations.DrainReturnsOldestBytes := by
  refine ⟨fun rest => decodeInvertsEncode .logDrain rest rfl rfl, fun s payload hlen hread => ?_⟩
  obtain ⟨log, hpop, hexec⟩ := exec_logDrain_of_read s payload hlen hread
  obtain ⟨-, -, hring, hend, hstart, hlevel⟩ :=
    LogBuffer.popMany_ok _ s.log log payload (hlen ▸ Nat.min_le_left _ _) hpop
  have hlengthByte : prefixByte Config.drainPrefixBias payload.length =
      if payload = [] then 0 else BitVec.ofNat 8 (payload.length - 1) := by
    simp only [prefixByte, Config.drainPrefixBias, List.length_eq_zero_iff]
  refine ⟨drainedTo payload log s, padBytes (63 - payload.length) s, hexec, ?blockSize, ?response,
    hring, hend, hstart, hlevel, rfl, rfl, rfl, rfl, rfl⟩
  case blockSize =>
    rw [List.length_append, padBytes_length]
    omega
  case response => rw [drainedTo_seq, hlengthByte]

/-! ## The buffer as a bounded queue (R138) -/

/-- From `s` to `t` the response has grown by one block per payload of `returned`, and the buffer of `t` is sound and
holds `queue`. -/
structure State.AnsweredAsQueue (s t : State) (returned : List (List Byte)) (queue : List Byte) : Prop where
  response : ∃ blocks : List (List Byte),
    t.seq.rsp = s.seq.rsp ++ blocks.flatten ∧ List.Forall₂ isBlockOf blocks returned
  sound : t.log.sound
  holds : t.log.holds queue

/-- With nothing answered, only the buffer matters. -/
theorem State.AnsweredAsQueue.of_rsp_eq {s t : State} {queue : List Byte} (hrsp : t.seq.rsp = s.seq.rsp)
    (hsound : t.log.sound) (hholds : t.log.holds queue) : s.AnsweredAsQueue t [] queue where
  response := ⟨[], by simp [hrsp], .nil⟩
  sound := hsound
  holds := hholds

/-- Answers of two runs in sequence stand one behind the other. -/
theorem State.AnsweredAsQueue.trans {s t u : State} {returned returned' : List (List Byte)} {between queue : List Byte}
    (hst : s.AnsweredAsQueue t returned between) (htu : t.AnsweredAsQueue u returned' queue) :
    s.AnsweredAsQueue u (returned ++ returned') queue where
  response := by
    obtain ⟨blocks, hrsp, hblocks⟩ := hst.response
    obtain ⟨blocks', hrsp', hblocks'⟩ := htu.response
    exact ⟨blocks ++ blocks', by rw [hrsp', hrsp, List.flatten_append, List.append_assoc],
      List.rel_append hblocks hblocks'⟩
  sound := htu.sound
  holds := htu.holds

/-- The queue takes a message exactly where LOG.APPEND's admission test does (R132). -/
theorem queueStep_logAppend (text queue : List Byte) :
    queueStep (.logAppend text) queue =
      if queue.length + text.length + 2 ≤ 256 then queue ++ stored text else queue := by
  simp only [queueStep, stored, ringCapacity_eq, List.append_assoc]

/-- LOG.APPEND is the queue's step. -/
theorem exec_logAppend_asQueue (text : List Byte) (s : State) (held : List Byte) (hsound : s.log.sound)
    (hheld : s.log.holds held) :
    ∃ t, exec (.logAppend text) s = .next t ∧
      s.AnsweredAsQueue t (queuePayload (.logAppend text) held) (queueStep (.logAppend text) held) := by
  have hlen := stored_length text
  have hlevel : s.log.level.toNat = held.length := hheld.1
  rw [queueStep_logAppend, ← hlevel]
  split
  case isTrue hfit =>
    exact ⟨_, execLogAppend_accepted text s hfit, .of_rsp_eq rfl
      (LogBuffer.sound_pushAll s.log (stored text) hsound (by omega))
      (LogBuffer.holds_pushAll s.log held (stored text) hheld (by omega))⟩
  case isFalse hfull =>
    exact ⟨s, execLogAppend_dropped text s (by omega), .of_rsp_eq rfl hsound hheld⟩

/-- A Drain of a buffer that holds some bytes reads the first 63 of them. -/
theorem LogBuffer.holds_read_take (l : LogBuffer) (held : List Byte) (h : l.holds held) :
    ∀ j < (held.take 63).length, l.ring.read ((l.startIx.toNat + j) % 256) = (held.take 63)[j]? := by
  obtain ⟨-, -, hread⟩ := h
  intro j hj
  rw [List.length_take] at hj
  rw [List.getElem?_take_of_lt (by omega)]
  exact hread j (by omega)

/-- LOG.DRAIN is the queue's step. -/
theorem exec_logDrain_asQueue (s : State) (held : List Byte) (hsound : s.log.sound) (hheld : s.log.holds held) :
    ∃ t, exec .logDrain s = .next t ∧
      s.AnsweredAsQueue t (queuePayload .logDrain held) (queueStep .logDrain held) := by
  have hlevel : s.log.level.toNat = held.length := hheld.1
  have hlen : (held.take 63).length = min s.log.level.toNat 63 := by rw [List.length_take, hlevel, Nat.min_comm]
  have hle : (held.take 63).length ≤ s.log.level.toNat := hlen ▸ Nat.min_le_left _ _
  obtain ⟨log, hpop, hexec⟩ := exec_logDrain_of_read s (held.take 63) hlen (LogBuffer.holds_read_take s.log held hheld)
  have hdrop : queueStep .logDrain held = held.drop (held.take 63).length := by
    change held.drop 63 = _
    rw [List.drop_eq_drop_iff, List.length_take]
    omega
  refine ⟨drainedTo (held.take 63) log s, hexec, ?response,
    LogBuffer.sound_popMany _ s.log log _ hsound hle hpop, ?holds⟩
  case response =>
    refine ⟨[_], by rw [drainedTo_seq, List.flatten_singleton], .cons (isBlockOf_append_pad (held.take 63) _ ?_) .nil⟩
    rw [padBytes_length]
    omega
  case holds =>
    rw [hdrop]
    exact LogBuffer.holds_popMany _ s.log log held _ hheld hle hpop

/-- An Append or a Drain is the queue's step. -/
theorem exec_asQueue (i : Instr) (hi : i = .logDrain ∨ ∃ text, i = .logAppend text) (s : State) (held : List Byte)
    (hsound : s.log.sound) (hheld : s.log.holds held) :
    ∃ t, exec i s = .next t ∧ s.AnsweredAsQueue t (queuePayload i held) (queueStep i held) := by
  obtain rfl | ⟨text, rfl⟩ := hi
  · exact exec_logDrain_asQueue s held hsound hheld
  · exact exec_logAppend_asQueue text s held hsound hheld

/-- Any sequence of Appends and Drains is the queue's run. -/
theorem execAll_asQueue (ops : List Instr) (s : State) (held : List Byte)
    (hops : ∀ i ∈ ops, i = .logDrain ∨ ∃ text, i = .logAppend text) (hsound : s.log.sound) (hheld : s.log.holds held) :
    ∃ t, execAll ops s = .next t ∧ s.AnsweredAsQueue t (payloads ops held) (queueAfter ops held) := by
  induction ops generalizing s held with
  | nil => exact ⟨s, rfl, .of_rsp_eq rfl hsound hheld⟩
  | cons i ops ih =>
    obtain ⟨hi, hrest⟩ := List.forall_mem_cons.1 hops
    obtain ⟨t, hexec, hqueue⟩ := exec_asQueue i hi s held hsound hheld
    obtain ⟨u, hrun, hqueue'⟩ := ih t (queueStep i held) hrest hqueue.sound hqueue.holds
    have hne : i ≠ .encSample := by rintro rfl; simp at hi
    exact ⟨u, by rw [execAll_cons, perform_eq_exec i s hne, hexec, andThen_next, hrun], hqueue.trans hqueue'⟩

/-- An Append or a Drain loses no byte of the queue and moves none past another. -/
theorem queueStep_conserves (i : Instr) (hi : i = .logDrain ∨ ∃ text, i = .logAppend text) (held : List Byte) :
    held ++ queueGains i held = (queuePayload i held).flatten ++ queueStep i held := by
  obtain rfl | ⟨text, rfl⟩ := hi
  · simp [queueGains, queuePayload, queueStep]
  · simp only [queueGains, queuePayload, queueStep, List.flatten_nil, List.nil_append]
    split <;> simp

/-- The bytes held at first and those accepted since are the payloads returned and the bytes still held, in order. -/
theorem queueAfter_conserves (ops : List Instr) (hops : ∀ i ∈ ops, i = .logDrain ∨ ∃ text, i = .logAppend text)
    (held : List Byte) : held ++ accepted ops held = (payloads ops held).flatten ++ queueAfter ops held := by
  induction ops generalizing held with
  | nil => simp [accepted, payloads, queueAfter]
  | cons i ops ih =>
    obtain ⟨hi, hrest⟩ := List.forall_mem_cons.1 hops
    calc held ++ accepted (i :: ops) held
        = (held ++ queueGains i held) ++ accepted ops (queueStep i held) := (List.append_assoc ..).symm
      _ = (queuePayload i held).flatten ++ (queueStep i held ++ accepted ops (queueStep i held)) := by
          rw [queueStep_conserves i hi, List.append_assoc]
      _ = (queuePayload i held).flatten ++
            ((payloads ops (queueStep i held)).flatten ++ queueAfter ops (queueStep i held)) := by
          rw [ih hrest]
      _ = (payloads (i :: ops) held).flatten ++ queueAfter (i :: ops) held := by
          rw [payloads, queueAfter, List.flatten_append, List.append_assoc]

/-- Settles O25: each operation is the queue's step, so a run is the queue's run; and the queue itself is first in,
first out. -/
theorem logBufferIsFifo : Obligations.LogBufferIsFifo := by
  intro ops s held hops hsound hheld
  obtain ⟨t, hrun, ⟨blocks, hrsp, hblocks⟩, hsound', hholds⟩ := execAll_asQueue ops s held hops hsound hheld
  exact ⟨t, blocks, hrun, hrsp, hblocks, hsound', hholds, queueAfter_conserves ops hops held⟩

end Sys2Proof.Machine
end

section
/-! PROOF. The rotary encoder decoder (42_enc.md): what ENC.INIT and `lines()` do (R150, R151), what one ENC.SAMPLE does up
to its settle wait and as a whole (R152, R153), and what runs of Samples do to the count and the gate (R154). -/

namespace Sys2Proof

/-! ## A reading of the lines (R151, R152) -/

theorem Lines.anyLow_iff (l : Lines) : l.anyLow = true ↔ l.a = false ∨ l.b = false := by
  simp [Lines.anyLow]

/-- The event that closes an open gate is what keeps a closed one from opening (R152). -/
theorem Lines.not_bothHigh (l : Lines) : (!l.bothHigh) = l.anyLow := by
  simp [Lines.anyLow, Lines.bothHigh]

end Sys2Proof

namespace Sys2Proof.Machine

/-! ## ENC.INIT and `lines()` (R150, R151) -/

/-- Settles O26: the frame decodes as an encoding does, and ENC.INIT writes the EncoderState alone. -/
theorem encInitEffect : Obligations.EncInitEffect :=
  ⟨fun maxCount rest => decodeInvertsEncode (.encInit maxCount) rest rfl rfl,
    fun _ _ => ⟨_, rfl, rfl, rfl, rfl, rfl, rfl, rfl, rfl⟩⟩

theorem linesNow_of_cons (s : State) (l : Lines) (later : List Lines) (h : s.env.lines = l :: later) :
    linesNow s = l := by
  simp [linesNow, h]

theorem linesTaken_lines (s : State) : (linesTaken s).env.lines = s.env.lines.tail := by
  unfold linesTaken
  split <;> simp_all

/-- Settles O29: `lines()` reads the head of the queue and leaves its tail. -/
theorem linesAnswerInOrder : Obligations.LinesAnswerInOrder := fun s l later h =>
  ⟨linesNow_of_cons s l later h, by rw [linesTaken_lines, h, List.tail_cons], linesTaken_enc s⟩

/-! ## One ENC.SAMPLE (R152, R153) -/

/-- What a Sample that finds the gate open and a line low leaves once its settle wait is over: a second reading, counted. -/
def sampleCounted (s : State) : State := endWait (beginWait (linesTaken s))

/-- What every other Sample leaves: a gate, open unless it was closed and a line reads low, and the count answered. -/
def sampleAnswered (s : State) : State :=
  answerCount ((linesTaken s).withEnc { s.enc with gateClosed := s.enc.gateClosed && (linesNow s).anyLow })

theorem sampleCounted_enc (s : State) :
    (sampleCounted s).enc =
      { s.enc with
        count := countAfter s.enc.count s.enc.max (linesNow (linesTaken s)), gateClosed := true } := by
  simp [sampleCounted, beginWait, linesNow]

theorem sampleCounted_env (s : State) : (sampleCounted s).env = (linesTaken (linesTaken s)).env :=
  linesTaken_env_congr (linesTaken s) (beginWait (linesTaken s)) rfl

theorem sampleCounted_seq (s : State) (h : s.seq.settle = .idle) :
    (sampleCounted s).seq = { s.seq with rsp := s.seq.rsp ++ [(sampleCounted s).enc.count] } := by
  simp [sampleCounted, ← h]

theorem sampleAnswered_enc (s : State) :
    (sampleAnswered s).enc = { s.enc with gateClosed := s.enc.gateClosed && (linesNow s).anyLow } := rfl

theorem sampleAnswered_env (s : State) : (sampleAnswered s).env = (linesTaken s).env := rfl

theorem sampleAnswered_seq (s : State) :
    (sampleAnswered s).seq = { s.seq with rsp := s.seq.rsp ++ [(sampleAnswered s).enc.count] } := by
  simp [sampleAnswered]

/-- A Sample sees the event an open gate acts on. -/
def State.GateCloses (s : State) : Prop := s.enc.gateClosed = false ∧ (linesNow s).anyLow = true

theorem State.gateCloses_iff (s : State) :
    s.GateCloses ↔ s.enc.gateClosed = false ∧ ((linesNow s).a = false ∨ (linesNow s).b = false) := by
  rw [State.GateCloses, Lines.anyLow_iff]

theorem exec_encSample_of_closes (s : State) (h : s.GateCloses) :
    exec .encSample s = .next (beginWait (linesTaken s)) := by
  obtain ⟨hopen, hlow⟩ := h
  obtain ⟨_, -, ⟨hclosed, -⟩ | ⟨-, -, hhigh⟩⟩ | ⟨-, -, hnext⟩ := execEncSample_cases s
  · simp [hopen] at hclosed
  · simp [hlow] at hhigh
  · exact hnext

theorem exec_encSample_of_not_closes (s : State) (h : ¬ s.GateCloses) :
    exec .encSample s = .next (sampleAnswered s) := by
  obtain ⟨gate, hnext, hgate⟩ | ⟨hopen, hlow, -⟩ := execEncSample_cases s
  · have hvalue : gate = (s.enc.gateClosed && (linesNow s).anyLow) := by
      obtain ⟨hclosed, rfl⟩ | ⟨hopen, rfl, -⟩ := hgate
      · rw [hclosed, Bool.true_and, Lines.not_bothHigh]
      · rw [hopen, Bool.false_and]
    rw [hvalue] at hnext
    exact hnext
  · exact absurd ⟨hopen, hlow⟩ h

/-- A Sample reads nothing that could be missing. -/
theorem exec_encSample_completes (s : State) : ∃ u, exec .encSample s = .next u := ⟨_, rfl⟩

/-- The whole of a Sample is the part up to its wait, and what follows the wait. -/
theorem perform_encSample_of_exec (s u : State) (h : exec .encSample s = .next u) :
    perform .encSample s = .next (completeWait u) := by
  simp [perform, h]

theorem perform_encSample_of_closes (s : State) (h : s.GateCloses) :
    perform .encSample s = .next (sampleCounted s) :=
  perform_encSample_of_exec s _ (exec_encSample_of_closes s h)

theorem completeWait_of_idle (s : State) (h : s.seq.settle = .idle) : completeWait s = s := by
  simp [completeWait, h]

theorem perform_encSample_of_not_closes (s : State) (hidle : s.seq.settle = .idle) (h : ¬ s.GateCloses) :
    perform .encSample s = .next (sampleAnswered s) := by
  rw [perform_encSample_of_exec s _ (exec_encSample_of_not_closes s h), completeWait_of_idle]
  rw [sampleAnswered_seq]
  exact hidle

/-- The second half of a Sample leaves what the first half leaves. -/
theorem completeWait_frame (s : State) :
    (completeWait s).display = s.display ∧ (completeWait s).pins = s.pins ∧ (completeWait s).log = s.log ∧
    (completeWait s).timer = s.timer := by
  unfold completeWait
  split
  · exact ⟨rfl, rfl, rfl, rfl⟩
  · exact ⟨endWait_display s, endWait_pins s, endWait_log s, endWait_timer s⟩

theorem exec_encSample_frame (s u : State) (h : exec .encSample s = .next u) :
    u.display = s.display ∧ u.pins = s.pins ∧ u.log = s.log ∧ u.timer = s.timer :=
  exec_encOperation_frame .encSample s u h (.inr rfl)

theorem perform_encSample_frame (s t : State) (h : perform .encSample s = .next t) :
    t.display = s.display ∧ t.pins = s.pins ∧ t.log = s.log ∧ t.timer = s.timer := by
  obtain ⟨u, hexec⟩ := exec_encSample_completes s
  obtain rfl : completeWait u = t := Host.Outcome.next.inj ((perform_encSample_of_exec s u hexec).symm.trans h)
  obtain ⟨hdisplay, hpins, hlog, htimer⟩ := completeWait_frame u
  obtain ⟨hdisplay', hpins', hlog', htimer'⟩ := exec_encSample_frame s u hexec
  exact ⟨hdisplay.trans hdisplay', hpins.trans hpins', hlog.trans hlog', htimer.trans htimer'⟩

/-- Settles O27: by whether the Sample closes the gate, which decides between the settle wait with its second reading and
an answer at once. -/
theorem sampleEffect : Obligations.SampleEffect := by
  refine ⟨fun rest => decodeInvertsEncode .encSample rest rfl rfl, fun s hidle => ?_⟩
  by_cases h : s.GateCloses
  · have hexec := exec_encSample_of_closes s h
    have hperform := perform_encSample_of_closes s h
    obtain ⟨hdisplay, hpins, hlog, htimer⟩ := perform_encSample_frame s _ hperform
    refine ⟨_, _, hexec, hperform, ?_, ?_, sampleCounted_seq s hidle, hdisplay, hpins, hlog, htimer,
      exec_encSample_frame s _ hexec⟩
    · dsimp only
      rw [if_pos (s.gateCloses_iff.1 h)]
      refine ⟨by simp, rfl, by simp, ?_, ?_, sampleCounted_env s⟩
      · rw [sampleCounted_enc]
      · rw [sampleCounted_enc]
        exact countAfter_toNat _ _ _
    · rw [sampleCounted_enc]
  · have hexec := exec_encSample_of_not_closes s h
    have hperform := perform_encSample_of_not_closes s hidle h
    obtain ⟨hdisplay, hpins, hlog, htimer⟩ := perform_encSample_frame s _ hperform
    refine ⟨_, _, hexec, hperform, ?_, rfl, sampleAnswered_seq s, hdisplay, hpins, hlog, htimer,
      exec_encSample_frame s _ hexec⟩
    dsimp only
    rw [if_neg (mt s.gateCloses_iff.2 h)]
    refine ⟨rfl, ?_, rfl, sampleAnswered_env s⟩
    rw [sampleAnswered_enc, ← Lines.not_bothHigh]
    rfl

/-! ## Any number of Samples keep the count within its rails (R154) -/

/-- The second reading keeps the count within its rails and the rail where it is, should a Sample be in its wait. -/
theorem completeWait_keeps_rails (s : State) (h : s.enc.sound) :
    (completeWait s).enc.sound ∧ (completeWait s).enc.max = s.enc.max := by
  unfold completeWait
  split
  · exact ⟨h, rfl⟩
  · rw [endWait_enc]
    exact ⟨countAfter_le_max _ _ _ h, rfl⟩

/-- A whole Sample completes and keeps the count within its rails, whatever the lines read. -/
theorem perform_encSample_keeps_rails (s : State) (h : s.enc.sound) :
    ∃ t, perform .encSample s = .next t ∧ t.enc.sound ∧ t.enc.max = s.enc.max := by
  obtain ⟨u, hexec⟩ := exec_encSample_completes s
  have hmax : u.enc.max = s.enc.max := by
    obtain ⟨gate, rfl⟩ | rfl := exec_encSample_next s u hexec <;> simp
  obtain ⟨hsound, hmax'⟩ := completeWait_keeps_rails u (exec_keeps_enc .encSample s u h hexec)
  exact ⟨completeWait u, perform_encSample_of_exec s u hexec, hsound, hmax'.trans hmax⟩

theorem execAll_cons_of_next (i : Instr) (is : List Instr) (s t : State) (h : perform i s = .next t) :
    execAll (i :: is) s = execAll is t := by
  rw [execAll_cons, h, andThen_next]

/-- Settles O30: by induction on the Samples, each of which completes, keeps the rails and does not move them. -/
theorem countStaysWithinRails : Obligations.CountStaysWithinRails := by
  intro n
  induction n with
  | zero => exact fun s h => ⟨s, rfl, h, rfl⟩
  | succ n ih =>
    intro s h
    obtain ⟨u, hperform, hsound, hmax⟩ := perform_encSample_keeps_rails s h
    obtain ⟨t, hrun, hsound', hmax'⟩ := ih u hsound
    refine ⟨t, ?_, hsound', hmax'.trans hmax⟩
    rw [List.replicate_succ, execAll_cons_of_next _ _ s u hperform, hrun]

/-! ## Samples of scripted lines (R152, R153) -/

/-- No wait runs, the encoder is `enc`, and the coming `lines()` calls answer `answers`: all that a run of whole Samples
depends on. -/
structure State.Sampling (enc : EncoderState) (answers : List Lines) (s : State) : Prop where
  enc : s.enc = enc
  settle : s.seq.settle = .idle
  lines : s.env.lines = answers

/-- From an open gate, a Sample that sees a line low counts by the reading after it and closes the gate. -/
theorem perform_encSample_open_low (count max : Byte) (l0 l1 : Lines) (answers : List Lines) (s : State)
    (h : s.Sampling ⟨count, max, false⟩ (l0 :: l1 :: answers)) (hlow : l0.anyLow = true) :
    ∃ t, perform .encSample s = .next t ∧ t.Sampling ⟨countAfter count max l1, max, true⟩ answers := by
  obtain ⟨henc, hidle, hlines⟩ := h
  have hfirst : linesNow s = l0 := linesNow_of_cons s l0 _ hlines
  have hcloses : s.GateCloses := ⟨by rw [henc], by rwa [hfirst]⟩
  have hlines' : (linesTaken s).env.lines = l1 :: answers := by rw [linesTaken_lines, hlines, List.tail_cons]
  refine ⟨_, perform_encSample_of_closes s hcloses, ?_, ?_, ?_⟩
  · rw [sampleCounted_enc, linesNow_of_cons _ l1 _ hlines', henc]
  · rw [sampleCounted_seq s hidle]
    exact hidle
  · rw [sampleCounted_env, linesTaken_lines, hlines', List.tail_cons]

/-- From a closed gate a Sample counts nothing, and the gate stays closed exactly when a line reads low. -/
theorem perform_encSample_closed (count max : Byte) (l : Lines) (answers : List Lines) (s : State)
    (h : s.Sampling ⟨count, max, true⟩ (l :: answers)) :
    ∃ t, perform .encSample s = .next t ∧ t.Sampling ⟨count, max, l.anyLow⟩ answers := by
  obtain ⟨henc, hidle, hlines⟩ := h
  have hstays : ¬ s.GateCloses := fun ⟨hopen, _⟩ => by simp [henc] at hopen
  refine ⟨_, perform_encSample_of_not_closes s hidle hstays, ?_, ?_, ?_⟩
  · rw [sampleAnswered_enc, linesNow_of_cons s l _ hlines, henc, Bool.true_and]
  · rw [sampleAnswered_seq]
    exact hidle
  · rw [sampleAnswered_env, linesTaken_lines, hlines, List.tail_cons]

/-! ### A held line (R153 corner (g)) -/

/-- From a closed gate, Samples that each see a line low leave the encoder as it was. -/
theorem execAll_encSample_held (count max : Byte) (seen later : List Lines) (hseen : ∀ l ∈ seen, l.anyLow = true)
    (s : State) (h : s.Sampling ⟨count, max, true⟩ (seen ++ later)) :
    ∃ t, execAll (List.replicate seen.length .encSample) s = .next t ∧ t.Sampling ⟨count, max, true⟩ later := by
  induction seen generalizing s with
  | nil => exact ⟨s, rfl, h⟩
  | cons l seen ih =>
    obtain ⟨hlow, hrest⟩ := List.forall_mem_cons.1 hseen
    obtain ⟨u, hperform, hu⟩ := perform_encSample_closed count max l _ s h
    rw [hlow] at hu
    obtain ⟨t, hrun, ht⟩ := ih hrest u hu
    refine ⟨t, ?_, ht⟩
    rw [List.length_cons, List.replicate_succ, execAll_cons_of_next _ _ s u hperform, hrun]

/-- Settles O32: the first Sample counts and closes the gate, and from a closed gate a held line does nothing. -/
theorem heldLineCountsOnce : Obligations.HeldLineCountsOnce := by
  constructor
  · intro seen s l0 l1 later hopen hidle hlow hseen hlines
    have hready : s.Sampling ⟨s.enc.count, s.enc.max, false⟩ (l0 :: l1 :: (seen ++ later)) :=
      ⟨by rw [← hopen], hidle, hlines⟩
    obtain ⟨u, hperform, hu⟩ := perform_encSample_open_low _ _ l0 l1 _ s hready (l0.anyLow_iff.2 hlow)
    obtain ⟨t, hrun, henc, -, hlater⟩ :=
      execAll_encSample_held _ _ seen later (fun l hl => l.anyLow_iff.2 (hseen l hl)) u hu
    refine ⟨t, ?_, ?_, by rw [henc], by rw [henc], hlater⟩
    · rw [List.replicate_succ, execAll_cons_of_next _ _ s u hperform, hrun]
    · rw [henc]
      exact countAfter_toNat s.enc.count s.enc.max l1
  · intro seen s later hclosed hidle hseen hlines
    have hready : s.Sampling ⟨s.enc.count, s.enc.max, true⟩ (seen ++ later) := ⟨by rw [← hclosed], hidle, hlines⟩
    obtain ⟨t, hrun, henc, -, hlater⟩ :=
      execAll_encSample_held _ _ seen later (fun l hl => l.anyLow_iff.2 (hseen l hl)) s hready
    exact ⟨t, hrun, by rw [henc, ← hclosed], hlater⟩

/-! ### Cycles on line A (R154) -/

/-- Line A low and line B high at the second reading count up, short of the rail. -/
theorem countAfter_a_low (count max : Byte) : countAfter count max ⟨false, true⟩ = satinc count max := rfl

/-- One cycle on line A: the count goes up short of the rail, and the gate is open again. -/
theorem execAll_encSample_cycle (count max : Byte) (answers : List Lines) (s : State)
    (h : s.Sampling ⟨count, max, false⟩ (⟨false, true⟩ :: ⟨false, true⟩ :: ⟨true, true⟩ :: answers)) :
    ∃ t, (∀ is, execAll (.encSample :: .encSample :: is) s = execAll is t) ∧
      t.Sampling ⟨satinc count max, max, false⟩ answers := by
  obtain ⟨u, hlow, hu⟩ := perform_encSample_open_low count max _ _ _ s h rfl
  rw [countAfter_a_low] at hu
  obtain ⟨t, hrest, ht⟩ := perform_encSample_closed _ max _ _ u hu
  refine ⟨t, fun is => ?_, ht⟩
  rw [execAll_cons_of_next _ _ s u hlow, execAll_cons_of_next _ _ u t hrest]

/-- Settles O31: by induction on the cycles, each of which adds one short of the rail. -/
theorem cyclesOnACountUpToTheRail : Obligations.CyclesOnACountUpToTheRail := by
  intro n
  induction n with
  | zero =>
    intro s later hrails hopen _ hlines
    exact ⟨s, rfl, (Nat.min_eq_left hrails).symm, hopen, hlines⟩
  | succ n ih =>
    intro s later hrails hopen hidle hlines
    have hready : s.Sampling ⟨s.enc.count, s.enc.max, false⟩ _ := ⟨by rw [← hopen], hidle, hlines⟩
    obtain ⟨u, hcycle, henc, hidle', hlines'⟩ := execAll_encSample_cycle _ _ _ s hready
    have hcount : u.enc.count.toNat = min (s.enc.count.toNat + 1) s.enc.max.toNat := by
      rw [henc, satinc_toNat]
      split <;> omega
    have hmax : u.enc.max = s.enc.max := by rw [henc]
    obtain ⟨t, hrun, hcount', hopen', hlater⟩ := ih u later (by rw [hcount, hmax]; omega) (by rw [henc]) hidle' hlines'
    refine ⟨t, (hcycle _).trans hrun, ?_, hopen', hlater⟩
    rw [hcount', hcount, hmax]
    omega

end Sys2Proof.Machine
end

section
/-! PROOF. The dispatcher boundary (43_dispatch.md): LED.SET and the unassigned opcodes are consumed and change nothing
(R170, R171). -/

namespace Sys2Proof.Machine

theorem exec_ledSet (c0 c1 c2 c3 : Byte) (s : State) : exec (.ledSet c0 c1 c2 c3) s = .next s := rfl

theorem exec_unassigned (opcode : Byte) (s : State) : exec (.unassigned opcode) s = .next s := rfl

/-- An LED.SET frame is one operation whatever its four bytes are, as every encoded frame decodes to its operation (O1). -/
theorem decode_ledSet_frame (c0 c1 c2 c3 : Byte) (rest : List Byte) :
    decode (0x81 :: c0 :: c1 :: c2 :: c3 :: rest) = .ok (.ledSet c0 c1 c2 c3, rest) :=
  decodeInvertsEncode (.ledSet c0 c1 c2 c3) rest rfl rfl

/-- Settles O33: both operations answer the state they were given, and the four bytes behind 0x81 are LED.SET's own. -/
theorem externalAndUnassignedChangeNothing : Obligations.ExternalAndUnassignedChangeNothing :=
  ⟨exec_ledSet, exec_unassigned, decode_ledSet_frame⟩

end Sys2Proof.Machine
end

section
/-! PROOF. The timer and the entry of its one interrupt (R184 to R187, R192 to R194): the timer's period as an induction on
its edges, that nothing but MUX.INIT and a Tick's entry reaches the timer, and that no operation stops (R180). -/

namespace Sys2Proof.Machine

/-! ## The timer's period (R192 to R194) -/

/-- A running timer with these counts. -/
def Timer.running (pending : Bool) (presc tcnt : Nat) : Timer :=
  { timerRun := true, presc := BitVec.ofNat 10 presc, tcnt := BitVec.ofNat 8 tcnt, tickPending := pending }

/-- Short of the prescaler's wrap only the prescaler advances. -/
theorem Timer.edge_running_short (top : Byte) (pending : Bool) (presc tcnt : Nat) (h : presc < 1023) :
    (Timer.running pending presc tcnt).edge top = Timer.running pending (presc + 1) tcnt := by
  have hpresc : presc % 1024 = presc := Nat.mod_eq_of_lt (by omega)
  have hnext : (presc + 1) % 1024 = presc + 1 := Nat.mod_eq_of_lt (by omega)
  have hne : presc ≠ 1023 := by omega
  simp [Timer.edge, Timer.running, Config.prescale, hpresc, hnext, hne]

/-- At the wrap the counter advances, below the compare value. -/
theorem Timer.edge_running_wrap (top : Byte) (pending : Bool) (tcnt : Nat) (h : tcnt < top.toNat) :
    (Timer.running pending 1023 tcnt).edge top = Timer.running pending 0 (tcnt + 1) := by
  have hne : BitVec.ofNat 8 tcnt ≠ top := by rintro rfl; rw [BitVec.toNat_ofNat] at h; omega
  simp [Timer.edge, Timer.running, Config.prescale, hne, BitVec.ofNat_add]

/-- At the wrap that finds the compare value the counter returns to 0 and the request is raised. -/
theorem Timer.edge_running_match (top : Byte) (pending : Bool) :
    (Timer.running pending 1023 top.toNat).edge top = Timer.running true 0 0 := by
  simp [Timer.edge, Timer.running, Config.prescale]

/-- Short of a period the edges count in base 1024, and the request stands as it stood. -/
theorem Timer.iterate_edge_short (top : Byte) (pending : Bool) (n : Nat) (h : n < 1024 * (top.toNat + 1)) :
    (Timer.edge top)^[n] (Timer.running pending 0 0) = Timer.running pending (n % 1024) (n / 1024) := by
  induction n with
  | zero => rfl
  | succ n ih =>
    rw [Function.iterate_succ_apply', ih (by omega)]
    by_cases hwrap : n % 1024 = 1023
    · have hpresc : (n + 1) % 1024 = 0 := by omega
      have htcnt : (n + 1) / 1024 = n / 1024 + 1 := by omega
      rw [hwrap, hpresc, htcnt, Timer.edge_running_wrap top pending _ (by omega)]
    · have hpresc : (n + 1) % 1024 = n % 1024 + 1 := by omega
      have htcnt : (n + 1) / 1024 = n / 1024 := by omega
      rw [hpresc, htcnt, Timer.edge_running_short top pending _ _ (by omega)]

/-- The edge that completes a period is the one that finds the prescaler at its last value and the counter at `top`. -/
theorem Timer.iterate_edge_period (top : Byte) (pending : Bool) :
    (Timer.edge top)^[1024 * (top.toNat + 1)] (Timer.running pending 0 0) = Timer.running true 0 0 := by
  have hlast : 1024 * (top.toNat + 1) = 1024 * top.toNat + 1023 + 1 := by omega
  have hpresc : (1024 * top.toNat + 1023) % 1024 = 1023 := by omega
  have htcnt : (1024 * top.toNat + 1023) / 1024 = top.toNat := by omega
  rw [hlast, Function.iterate_succ_apply', Timer.iterate_edge_short top pending _ (by omega), hpresc, htcnt,
    Timer.edge_running_match]

/-- Settles O34: by induction the edges of a period count in base 1024, and its last edge finds the compare value. -/
theorem timerRequestsOncePerPeriod : Obligations.TimerRequestsOncePerPeriod :=
  ⟨Timer.iterate_edge_short, Timer.iterate_edge_period, rfl⟩

/-! ## Who reaches the timer and the pins (R184, R186, R187) -/

/-- `t` agrees with `s` on all that the Tick interrupt is made of: the timer, the phase, the pins and their trace. -/
structure State.SameTickState (s t : State) : Prop where
  timer : t.timer = s.timer
  tickPhase : t.seq.tickPhase = s.seq.tickPhase
  pins : t.pins = s.pins
  pinTrace : t.env.pinTrace = s.env.pinTrace

theorem State.SameTickState.refl (s : State) : s.SameTickState s := ⟨rfl, rfl, rfl, rfl⟩

theorem State.SameTickState.trans {s t u : State} (hst : s.SameTickState t) (htu : t.SameTickState u) :
    s.SameTickState u :=
  ⟨htu.timer.trans hst.timer, htu.tickPhase.trans hst.tickPhase, htu.pins.trans hst.pins,
    htu.pinTrace.trans hst.pinTrace⟩

/-- MUX.INIT is the only frame that reaches the timer or the pins. -/
theorem exec_sameTickState (i : Instr) (s t : State) (hinit : i ≠ .muxInit) (htick : i ≠ .tick)
    (h : exec i s = .next t) : s.SameTickState t := by
  cases i with
  | muxInit => exact absurd rfl hinit
  | tick => exact absurd rfl htick
  | encSample =>
    obtain ⟨gate, rfl⟩ | rfl := exec_encSample_next s t h <;> constructor <;> simp [answerCount, beginWait]
  | logAppend text => obtain rfl | ⟨-, rfl⟩ := exec_logAppend_next text s t h <;> exact ⟨rfl, rfl, rfl, rfl⟩
  | logDrain =>
    obtain ⟨_, _, _, _, -, rfl⟩ := exec_logDrain_next s t h
    exact ⟨rfl, rfl, rfl, rfl⟩
  | logInit | muxSet | encInit | ledSet | unassigned => cases h; exact ⟨rfl, rfl, rfl, rfl⟩

theorem ne_tick_of_pendingOp (s : State) (i : Instr) (rest : List Byte) (h : pendingOp s = some (i, rest)) :
    i ≠ .tick := by
  obtain ⟨-, -, -, hne⟩ := decodedBytesAreTheEncoding _ i rest (decode_of_pendingOp s i rest h)
  exact hne

/-- But for a MUX.INIT taking effect, a step without reset does to the timer and the pins what the clock edge does. -/
theorem step_sameTickState_clockEdge (s t : State) (hrst : (edgeIn s).rst = false)
    (hinit : ∀ rest, pendingOp s ≠ some (.muxInit, rest)) (h : step s = .next t) : (clockEdge s).SameTickState t := by
  obtain ⟨i, rest, hop, hexec⟩ | ⟨-, rfl⟩ := step_next_cases s t hrst h
  · have hne : i ≠ .muxInit := by rintro rfl; exact hinit rest hop
    exact exec_sameTickState i _ t hne (ne_tick_of_pendingOp s i rest hop) hexec
  · exact .refl _

theorem exec_muxInit_timer (s t : State) (h : exec .muxInit s = .next t) :
    t.timer = { timerRun := true, presc := 0, tcnt := 0, tickPending := false } := by
  cases h; rfl

/-- Settles O35: MUX.INIT restarts the timer on top of the edge; any other step leaves it to the clock edge, which is the
timer's own rule, the request cleared where P1 is performed. -/
theorem timerAdvancesAtEveryEdge : Obligations.TimerAdvancesAtEveryEdge := by
  intro s t hrst h
  constructor
  · rintro ⟨rest, hop⟩
    exact exec_muxInit_timer _ t ((step_of_pendingOp s .muxInit rest hrst hop).symm.trans h)
  · intro hinit
    have htimer := (step_sameTickState_clockEdge s t hrst hinit h).timer
    rw [clockEdge_timer] at htimer
    by_cases hphase : phaseAt s = .p1
    · rw [if_pos hphase] at htimer
      simp [htimer, hphase]
    · rw [if_neg hphase] at htimer
      simp [htimer, hphase]

/-- With no Tick in progress and none requested, no phase comes. -/
theorem phaseAt_of_no_request (s : State) (hphase : s.seq.tickPhase = .idle) (hpending : s.timer.tickPending = false) :
    phaseAt s = .idle := by
  simp [phaseAt, hphase, hpending]

/-- An edge with the timer stopped and no Tick due leaves all that the Tick is made of. -/
theorem clockEdge_sameTickState_of_stopped (s : State) (hrun : s.timer.timerRun = false)
    (hpending : s.timer.tickPending = false) (hphase : s.seq.tickPhase = .idle) : s.SameTickState (clockEdge s) := by
  have hnone := phaseAt_of_no_request s hphase hpending
  exact {
    timer := by simp [clockEdge_timer, hnone, Timer.edge_stopped _ _ hrun]
    tickPhase := by simp [clockEdge_seq, hnone, hphase]
    pins := by simp [clockEdge_pins, hnone, phasePins]
    pinTrace := by simp [clockEdge_pinTrace, hnone] }

/-- Settles O36: neither the edge of a stopped timer nor an operation other than MUX.INIT reaches the timer or the pins. -/
theorem noTickBeforeMuxInit : Obligations.NoTickBeforeMuxInit := by
  intro s t hrst hrun hpending hphase hinit h
  have hsame : s.SameTickState t :=
    (clockEdge_sameTickState_of_stopped s hrun hpending hphase).trans (step_sameTickState_clockEdge s t hrst hinit h)
  exact ⟨hsame.timer, hsame.tickPhase.trans hphase, hsame.pins, hsame.pinTrace⟩

/-! ## Interrupt entry (R185 to R187) -/

/-- Settles O37: the request makes P1 the phase due, which holds FG off, so the step is the clock edge and the edge is P1
with the settle counter going on beside it. -/
theorem pendingRequestEntersTick : Obligations.PendingRequestEntersTick := by
  intro s hrst hpending hidle
  have hphase := phaseAt_of_request s hidle hpending
  have hdue : phaseAt s ≠ .idle := by simp [hphase]
  have hsame := phaseStep_sameForTick_clockEdge s hdue
  rw [hphase] at hsame
  have hpins : (clockEdge s).pins = s.pins.dark := hsame.pins
  refine ⟨clockEdge s, step_of_held s hrst (fgFree_eq_false_of_phase s hdue), by simp [clockEdge_timer, hphase],
    by simp [clockEdge_seq, hphase], hpins, ?_, hsame.display, hsame.log, hsame.frame, by rw [clockEdge_seq],
    clockEdge_enc_of_ne s⟩
  rw [hsame.pinTrace, hpins]; rfl

/-! ## No operation stops (R180) -/

/-- Settles O47: only LOG.DRAIN could stop, on an unwritten byte, and in a sound buffer every byte it reads is written. -/
theorem everyOperationCompletes : Obligations.EveryOperationCompletes := exec_completes

end Sys2Proof.Machine
end

section
/-! PROOF. Hardware reset (70_reset_and_hazards.md: R210, R41). What the edge with `rst` = 1 leaves is `State.reset` with
another outside, so the reset column itself is cited from `stateAfterReset`. -/

namespace Sys2Proof.Machine

theorem step_of_rst (s : State) (hrst : (edgeIn s).rst = true) : step s = .next (hardReset s) := by
  simp [step, hrst]

/-! ## The ports while `rst` is 1 -/

theorem cmdReady_of_rst (s : State) (hrst : (edgeIn s).rst = true) : cmdReady s = false := by
  simp [cmdReady, hrst]

theorem rspValid_of_rst (s : State) (hrst : (edgeIn s).rst = true) : rspValid s = false := by
  simp [rspValid, hrst]

/-! ## The state hardware reset leaves -/

/-- But for what is outside, hardware reset leaves nothing of the state before it. -/
theorem hardReset_withEnv (s : State) : (hardReset s).withEnv State.reset.env = State.reset := rfl

/-- What FG has not sent is not the block's (log 21). -/
theorem hardReset_cmd (s : State) : (hardReset s).env.cmd = s.env.cmd := edgeTaken_cmd s

/-- What HOST has taken is not the block's (log 21). -/
theorem hardReset_taken (s : State) : (hardReset s).env.taken = s.env.taken := edgeTaken_taken s

/-- Settles O8: the step is the hardware reset, whose fields are those of `State.reset`, and `rst` holds both ports. -/
theorem hardwareResetWins : Obligations.HardwareResetWins := by
  intro s hrst
  obtain ⟨hdisplay, hpins, hstart, hend, hlevel, henc, htimer, hseq, -⟩ :
      Obligations.StateAfterReset := stateAfterReset
  rw [← hardReset_withEnv s] at hdisplay hpins hstart hend hlevel henc htimer hseq
  exact ⟨cmdReady_of_rst s hrst, rspValid_of_rst s hrst, hardReset s, step_of_rst s hrst,
    hdisplay, hpins, hstart, hend, hlevel, henc, htimer, hseq, hardReset_cmd s, hardReset_taken s⟩

end Sys2Proof.Machine
end
